-- ==== Sys2Proof/Word.lean ====
section
/-! DEFINITION. The byte, the only word of this machine (R11, R20, R45), and reduction modulo 256. -/

namespace Sys2Proof

/-- A value in 0..255. Every register, memory cell, operand and emitted value is one (R11). -/
abbrev Byte := BitVec 8

/-- The remainder modulo 256 of an exact natural result (R12, R120). -/
def wrap (n : Nat) : Byte := BitVec.ofNat 8 n

end Sys2Proof
end

