-- ==== Sys2Proof/Syntax.lean ====
section
/-! DEFINITION. The instructions: one constructor per row of spec/opcode_table.json, in the table's order. -/

namespace Sys2Proof

/-- An instruction with its raw operand bytes. A register index stays a whole byte (R63): it is checked by the
instruction when it is used, never by the decoder (R84). -/
inductive Instr where
  | ldi (a b : Byte)    -- LDI: register a, immediate b (R100)
  | prn (a : Byte)      -- PRN: register a (R101)
  | hlt                 -- HLT (R103)
  | mul (a b : Byte)    -- MUL: registers a and b (R124)
  | add (a b : Byte)    -- ADD: registers a and b (R122)
  | push (a : Byte)     -- PUSH: register a (R153)
  | pop (a : Byte)      -- POP: register a (R154)
  | call (t : Byte)     -- CALL: the fetched byte at pc+1, which the instruction reads again (R171)
  | ret                 -- RET (R172)
  | cmp (a b : Byte)    -- CMP: registers a and b (R126)
  | jeq (a : Byte)      -- JEQ: target register a (R174)
  | jne (a : Byte)      -- JNE: target register a (R175)
  | jmp (a : Byte)      -- JMP: target register a (R173)
  | sub (a b : Byte)    -- SUB: registers a and b, under ALU_EXT (R123)
  | div (a b : Byte)    -- DIV: registers a and b, under ALU_EXT (R125)
deriving DecidableEq, Repr

end Sys2Proof
end

