-- ==== Sys2Proof/WellFormed.lean ====
section
/-! DEFINITION. Which instructions exist in a configuration. -/

namespace Sys2Proof

/-- The instructions that exist only when `ALU_EXT` is true (R123, R125). -/
def Instr.needsAluExt : Instr → Bool
  | .sub _ _ => true
  | .div _ _ => true
  | .ldi _ _ => false
  | .prn _ => false
  | .hlt => false
  | .mul _ _ => false
  | .add _ _ => false
  | .push _ => false
  | .pop _ => false
  | .call _ => false
  | .ret => false
  | .cmp _ _ => false
  | .jeq _ => false
  | .jne _ => false
  | .jmp _ => false

/-- An instruction is well formed in a configuration when that configuration has it. Operands put no further
condition on it: every byte is a legal operand byte, and an index of 8 to 255 faults when used (R68). -/
def Instr.wellFormed (aluExt : Bool) (i : Instr) : Bool := aluExt || !i.needsAluExt

end Sys2Proof
end

