-- ==== Sys2Proof/Decode.lean ====
section
/-! DEFINITION. The opcode table (R66), the decoder that looks an opcode byte up in it (R83), and the encoder. -/

namespace Sys2Proof

/-- One row of the opcode table of R66. -/
structure OpcodeRow where
  /-- The whole opcode byte; no part of it is decoded further (R62, R69). -/
  opcode : Byte
  /-- The bytes the instruction occupies, its opcode among them (R61). -/
  width : Nat
  /-- The row is in the table only when `ALU_EXT` is true (D2). -/
  aluExtOnly : Bool
  /-- The instruction of the row, from the operand bytes a and b; a format ignores the bytes past its width (R61). -/
  build : Byte → Byte → Instr

/-- The opcode table, in the order of R66. LDI, PRN and HLT have the source's bytes; the other values are the spec's
default of the parameter `OPCODE` (D1; log entry 3). -/
def opcodeTable : List OpcodeRow :=
  [ ⟨0x82#8, 3, false, fun a b => .ldi a b⟩,
    ⟨0x47#8, 2, false, fun a _ => .prn a⟩,
    ⟨0x01#8, 1, false, fun _ _ => .hlt⟩,
    ⟨0xA2#8, 3, false, fun a b => .mul a b⟩,
    ⟨0xA0#8, 3, false, fun a b => .add a b⟩,
    ⟨0x45#8, 2, false, fun a _ => .push a⟩,
    ⟨0x46#8, 2, false, fun a _ => .pop a⟩,
    ⟨0x50#8, 2, false, fun a _ => .call a⟩,
    ⟨0x11#8, 1, false, fun _ _ => .ret⟩,
    ⟨0xA7#8, 3, false, fun a b => .cmp a b⟩,
    ⟨0x55#8, 2, false, fun a _ => .jeq a⟩,
    ⟨0x56#8, 2, false, fun a _ => .jne a⟩,
    ⟨0x54#8, 2, false, fun a _ => .jmp a⟩,
    ⟨0xA1#8, 3, true, fun a b => .sub a b⟩,
    ⟨0xA3#8, 3, true, fun a b => .div a b⟩ ]

/-- The row of an opcode byte in a configuration, if it has one (R66, R83). -/
def lookupOpcode (aluExt : Bool) (ir : Byte) : Option OpcodeRow :=
  opcodeTable.find? fun r => r.opcode == ir && (aluExt || !r.aluExtOnly)

/-- What the decoder answers. -/
inductive Decoded where
  /-- The byte names a row of the table. -/
  | instr (i : Instr)
  /-- The byte is in no row (R67): the step raises DecodeError. -/
  | illegalOpcode (ir : Byte)
deriving DecidableEq, Repr

/-- The decoder (R65, R83), total on any three fetched bytes. -/
def decode (aluExt : Bool) (ir a b : Byte) : Decoded :=
  match lookupOpcode aluExt ir with
  | some r => .instr (r.build a b)
  | none => .illegalOpcode ir

/-- The instruction read, if one was. -/
def Decoded.instr? : Decoded → Option Instr
  | .instr i => some i
  | .illegalOpcode _ => none

/-- The opcode byte of an instruction (R66). -/
def opcodeOf : Instr → Byte
  | .ldi _ _ => 0x82#8
  | .prn _ => 0x47#8
  | .hlt => 0x01#8
  | .mul _ _ => 0xA2#8
  | .add _ _ => 0xA0#8
  | .push _ => 0x45#8
  | .pop _ => 0x46#8
  | .call _ => 0x50#8
  | .ret => 0x11#8
  | .cmp _ _ => 0xA7#8
  | .jeq _ => 0x55#8
  | .jne _ => 0x56#8
  | .jmp _ => 0x54#8
  | .sub _ _ => 0xA1#8
  | .div _ _ => 0xA3#8

/-- The width of an instruction in bytes (R61). -/
def width : Instr → Nat
  | .ldi _ _ => 3
  | .prn _ => 2
  | .hlt => 1
  | .mul _ _ => 3
  | .add _ _ => 3
  | .push _ => 2
  | .pop _ => 2
  | .call _ => 2
  | .ret => 1
  | .cmp _ _ => 3
  | .jeq _ => 2
  | .jne _ => 2
  | .jmp _ => 2
  | .sub _ _ => 3
  | .div _ _ => 3

/-- The operand bytes of an instruction, in the order of their addresses (R60, R61). -/
def operandBytes : Instr → List Byte
  | .ldi a b => [a, b]
  | .prn a => [a]
  | .hlt => []
  | .mul a b => [a, b]
  | .add a b => [a, b]
  | .push a => [a]
  | .pop a => [a]
  | .call t => [t]
  | .ret => []
  | .cmp a b => [a, b]
  | .jeq a => [a]
  | .jne a => [a]
  | .jmp a => [a]
  | .sub a b => [a, b]
  | .div a b => [a, b]

/-- The encoder: the opcode byte, then the operand bytes at ascending addresses (R45, R60). -/
def encode (i : Instr) : List Byte := opcodeOf i :: operandBytes i

/-- Byte k of an instruction given as one number of `nbits` bits, whose first byte is its least significant byte;
the bits above `nbits` are 0. -/
def wordByte (nbits w k : Nat) : Byte := BitVec.ofNat 8 ((w % 2 ^ nbits) / 256 ^ k)

/-- The instruction the decoder reads from an opcode table word. It is asked with `ALU_EXT` true, the configuration
in which every row of the table is decodable (log entry 2); the other 13 rows decode the same in both. -/
def decodeTableWord (nbits w : Nat) : Option Instr :=
  (decode true (wordByte nbits w 0) (wordByte nbits w 1) (wordByte nbits w 2)).instr?

end Sys2Proof
end

