-- ==== Sys2Proof/Config.lean ====
section
/-! DEFINITION. The implementation parameters of R10, and the one thing the spec leaves to the loader. -/

namespace Sys2Proof.Config

/-- `MEM_SIZE` (R10, R40): the addresses are 0..255. -/
def memSize : Nat := 256

/-- `SP_RESET` (R10, R33). -/
def spReset : Byte := 0xF4#8

/-- `STACK_EMPTY` (R10, R150): the SP value of an empty stack. -/
def stackEmpty : Byte := 0xF4#8

/-- `PC_RESET` (R10, R33). -/
def pcReset : Nat := 0

/-- The default of `ALU_EXT` (R10, D2). The value a core has is State's field `aluExt` (log entry 2). -/
def aluExtDefault : Bool := false

/-- DESIGN CHOICE (log entry 1): the draw `reg_init` that `State.reset` uses. The spec gives none; unsafe. -/
def regInitDefault : Vector Byte 7 := Vector.replicate 7 0#8

/-- A free value of the loader (R71, N14; log entry 9): the byte that a program line stands for, or `none` for a load
error, where the line holds a literal of binary digits and the source leaves open whether it is accepted: for the white
space around it, or for its number of digits. No body: the source does not say, so nothing may be proved of it. -/
opaque openLine : List Char → Option Byte

end Sys2Proof.Config
end

