-- ==== Sys2Proof/Machine/State.lean ====
section
/-! DEFINITION. The state of the core as plain data (10_state.md), its reset, and the outcomes that are no next state. -/

namespace Sys2Proof.Machine

/-- The flags register FL (R25): three bits with no packed form (R26, D13). -/
structure Flags where
  /-- Equal. -/
  e : Bool
  /-- Less-than. -/
  l : Bool
  /-- Greater-than. -/
  g : Bool
deriving DecidableEq, Repr

/-- The kind of an `ArithmeticError` (R201, C10). -/
inductive ArithmeticKind where
  | divisionByZero
deriving DecidableEq, Repr

/-- What an `OutOfRange` names, and the value that was out of range (R201). -/
inductive RangeKind where
  | memory (addr : Nat)
  | register (idx : Byte)
deriving DecidableEq, Repr

/-- The fault causes with their recorded info; the list of R201 is complete. -/
inductive Cause where
  | decodeError (ir : Byte) (pc : Nat)
  | arithmeticError (kind : ArithmeticKind)
  | stackOverflow (sp : Byte)
  | stackUnderflow (sp : Byte)
  | outOfRange (kind : RangeKind)
deriving DecidableEq, Repr

/-- The fault record (C, pc, ir, I) of R203; the info I stands inside the cause. -/
structure FaultRecord where
  cause : Cause
  /-- The address of the faulting instruction's opcode. -/
  pc : Nat
  /-- Its opcode byte, or none when the fetch of `pc` itself faulted. -/
  ir : Option Byte
deriving DecidableEq, Repr

/-- The run state (R28). Only `running` has a next step (R81). -/
inductive RunState where
  | running
  | halted
  | faulted (rec : FaultRecord)
deriving DecidableEq, Repr

/-- Memory as (address, byte) pairs in one canonical form: addresses strictly rising, no byte equal to what an unlisted
address reads as, which is 0 (R40; log entry 7). -/
abbrev Memory := List Host.Cell

/-- The state of the core: the tuple of 10_state.md and the configuration parameter `ALU_EXT`. -/
structure State where
  /-- The register file x[0..7]; x[7] is SP (R20, R23). -/
  regs : Vector Byte 8
  /-- The flags FL (R25). -/
  fl : Flags
  /-- The program counter, in 0..256, never wrapping (R27, D6). -/
  pc : Nat
  /-- The run state (R28). -/
  run : RunState
  /-- Memory (R40). -/
  mem : Memory
  /-- The output stream, oldest byte first (R29). -/
  out : List Byte
  /-- `ALU_EXT` (R10, R30, D2; log entry 2). No step changes it. -/
  aluExt : Bool
deriving DecidableEq, Repr

/-- Machine construction (R33, R230) in either configuration and for every draw `reg_init` of R0..R6 (D3). -/
def State.construct (aluExt : Bool) (regInit : Vector Byte 7) : State where
  regs := regInit.push Config.spReset
  fl := ⟨false, false, false⟩
  pc := Config.pcReset
  run := .running
  mem := []
  out := []
  aluExt := aluExt

/-- The machine right after reset: the spec's default configuration, and the draw that log entry 1 names. -/
def State.reset : State := State.construct Config.aluExtDefault Config.regInitDefault

/-- Why `step` answers no next state. No instruction raises one: a fault of the core is a next state whose `run` is
`faulted` (R86; log entry 4). -/
inductive Fault where
  /-- Raised by `step` alone, when the core is Halted: there is no step (R81, R104). Safe: the hardware does nothing. -/
  | coreHalted
  /-- Raised by `step` alone, when the core is Faulted: there is no step (R81, R200). Safe: the hardware does nothing. -/
  | coreFaulted
deriving DecidableEq, Repr

/-- Refusals of the model. -/
inductive Refusal where
  /-- Raised by an arm of `exec` that has no meaning yet; no arm is left that does so. Safe. -/
  | notModelled (mnemonic : String)
deriving DecidableEq, Repr

end Sys2Proof.Machine
end

