-- ==== Sys2Proof/Machine/Flags.lean ====
section
/-! DEFINITION. The one flag computation of the core: CMP's (R25, R126). No other instruction writes a flag (R121). -/

namespace Sys2Proof.Machine

/-- E, L and G of an unsigned comparison (R126, D17). -/
def compareFlags (u v : Byte) : Flags where
  e := decide (u.toNat = v.toNat)
  l := decide (u.toNat < v.toNat)
  g := decide (v.toNat < u.toNat)

end Sys2Proof.Machine
end

