-- ==== Sys2Proof/Machine/Ops.lean ====
section
/-! DEFINITION. The named operations over memory, registers, the stack and the run state (the primitives of R12), and
taking a fault (R86, R203), which is the core's only exception entry. There is no return from a fault (R207). -/

namespace Sys2Proof.Machine

/-- The byte at an address of a memory list; an unlisted address reads as 0 (R40). -/
def Memory.read : Memory → Nat → Byte
  | [], _ => 0#8
  | (k, v) :: rest, a => if k = a then v else Memory.read rest a

/-- Store a byte, keeping the canonical form. -/
def Memory.write : Memory → Nat → Byte → Memory
  | [], a, v => if v = 0#8 then [] else [(a, v)]
  | (k, w) :: rest, a, v =>
    if a < k then (if v = 0#8 then (k, w) :: rest else (a, v) :: (k, w) :: rest)
    else if a = k then (if v = 0#8 then rest else (a, v) :: rest)
    else (k, w) :: Memory.write rest a v

/-- The canonical form: addresses strictly rising, all in 0..255, no listed byte equal to 0. -/
abbrev Memory.wf (m : Memory) : Prop :=
  m.Pairwise (fun c d => c.1 < d.1) ∧ ∀ c ∈ m, c.1 < Config.memSize ∧ c.2 ≠ 0#8

/-- Store a byte at an address the machine has, and nothing elsewhere: how the loader reaches memory (R5). -/
def Memory.poke (m : Memory) (a : Nat) (v : Byte) : Memory :=
  if a < Config.memSize then m.write a v else m

/-- `x[i]` (R12). -/
def State.reg (s : State) (i : Fin 8) : Byte := s.regs[i]

/-- `x[i] <- v` (R12, R24). -/
def State.setReg (s : State) (i : Fin 8) (v : Byte) : State := { s with regs := s.regs.set i v }

/-- The index of the stack pointer (R10, R23). -/
def spIndex : Fin 8 := 7

/-- `SP`, another name for x[7] (R12). -/
def State.sp (s : State) : Byte := s.reg spIndex

/-- Write the flags (R25). -/
def State.setFlags (s : State) (f : Flags) : State := { s with fl := f }

/-- `pc <- pc + n`, past an instruction of n bytes (R85). -/
def State.advance (s : State) (n : Nat) : State := { s with pc := s.pc + n }

/-- `pc <- target`; a target is a byte, an absolute address (R170). -/
def State.jump (s : State) (target : Byte) : State := { s with pc := target.toNat }

/-- `emit(v)` (R6, R12). -/
def State.emit (s : State) (v : Byte) : State := { s with out := s.out ++ [v] }

/-- `halt()` (R12). -/
def State.halt (s : State) : State := { s with run := .halted }

/-- `MemRead(addr, 1)` (R42). -/
def memRead (s : State) (addr : Nat) : Except Cause Byte :=
  if addr < Config.memSize then .ok (s.mem.read addr) else .error (.outOfRange (.memory addr))

/-- `MemWrite(addr, 1, v)` (R43). -/
def memWrite (s : State) (addr : Nat) (v : Byte) : Except Cause State :=
  if addr < Config.memSize then .ok { s with mem := s.mem.write addr v }
  else .error (.outOfRange (.memory addr))

/-- The bound of a push and the decrement of SP that follows it (R151). The byte is then written at the new SP. -/
def pushSpace (s : State) : Except Cause State :=
  if s.sp = 0#8 then .error (.stackOverflow s.sp) else .ok (s.setReg spIndex (s.sp - 1#8))

/-- The bound of a pop, and the byte at SP (R152). SP is then incremented by `popSpace`. -/
def popByte (s : State) : Except Cause Byte :=
  if Config.stackEmpty.toNat ≤ s.sp.toNat then .error (.stackUnderflow s.sp) else memRead s s.sp.toNat

/-- `x[7] <- (x[7] + 1) mod 256` (R154, R172, D7). -/
def popSpace (s : State) : State := s.setReg spIndex (s.sp + 1#8)

/-- Taking a fault (R86, R203): the state at the start of the step with `run <- Faulted(rec)`, and nothing else. -/
def takeFault (c : Cause) (ir : Option Byte) (s : State) : State :=
  { s with run := .faulted ⟨c, s.pc, ir⟩ }

/-- How a step ends that started in `s` with the opcode byte `ir` (R88): its writes, or the fault it raised with every
write discarded. -/
def complete (ir : Byte) (s : State) (r : Except Cause State) : Host.Outcome State Fault Refusal :=
  match r with
  | .ok t => .next t
  | .error c => .next (takeFault c (some ir) s)

end Sys2Proof.Machine
end

