-- ==== Sys2Proof/Machine/Operands.lean ====
section
/-! DEFINITION. The operand forms: a register index that is checked when it is used (R12, R63), and the register pair
of the ALU (R120). An immediate is the operand byte itself (R63) and needs no operation. -/

namespace Sys2Proof.Machine

/-- `checkreg(i)` (R12, D4): the register an operand byte names; 8 to 255 name none and are not masked. -/
def checkReg (idx : Byte) : Except Cause (Fin 8) :=
  if h : idx.toNat < 8 then .ok ⟨idx.toNat, h⟩ else .error (.outOfRange (.register idx))

/-- The operand pair of the ALU (R120): both indices are checked, a first, before either register is read. -/
def checkPair (a b : Byte) : Except Cause (Fin 8 × Fin 8) := do
  let i ← checkReg a
  let j ← checkReg b
  return (i, j)

/-- A jump through the register that an operand byte names (R170): `checkreg(t); pc <- x[t]`. -/
def jumpThrough (t : Byte) (s : State) : Except Cause State := do
  let i ← checkReg t
  return s.jump (s.reg i)

end Sys2Proof.Machine
end

