-- ==== Sys2Proof/Machine/Alu.lean ====
section
/-! DEFINITION. The ALU: the laws of R127 on exact naturals, narrowed modulo 256, and ADD, SUB, MUL, DIV and CMP
(42_alu.md). That SUB and DIV exist only under `ALU_EXT` is the decoder's affair (R67, R83). -/

namespace Sys2Proof.Machine

/-- (u + v) mod 256 (R127). -/
def aluAdd (u v : Byte) : Byte := wrap (u.toNat + v.toNat)

/-- (u + 256 - v) mod 256 (R127). -/
def aluSub (u v : Byte) : Byte := wrap (u.toNat + 256 - v.toNat)

/-- (u * v) mod 256 (R127). -/
def aluMul (u v : Byte) : Byte := wrap (u.toNat * v.toNat)

/-- floor(u / v), or DivisionByZero (R125, R127, D8). -/
def aluDiv (u v : Byte) : Except Cause Byte :=
  if v = 0#8 then .error (.arithmeticError .divisionByZero) else .ok (wrap (u.toNat / v.toNat))

/-- An operation in place on register a (R120, R121): both registers are read before a is written (R235). -/
def aluInPlace (f : Byte → Byte → Except Cause Byte) (a b : Byte) (s : State) : Except Cause State := do
  let (i, j) ← checkPair a b
  let r ← f (s.reg i) (s.reg j)
  return (s.setReg i r).advance 3

/-- MUL (R124). -/
def execMul (a b : Byte) (s : State) : Host.Outcome State Fault Refusal :=
  complete (opcodeOf (.mul a b)) s (aluInPlace (fun u v => .ok (aluMul u v)) a b s)

/-- ADD (R122). -/
def execAdd (a b : Byte) (s : State) : Host.Outcome State Fault Refusal :=
  complete (opcodeOf (.add a b)) s (aluInPlace (fun u v => .ok (aluAdd u v)) a b s)

/-- CMP (R126): writes all three flags and no register. -/
def execCmp (a b : Byte) (s : State) : Host.Outcome State Fault Refusal :=
  complete (opcodeOf (.cmp a b)) s do
    let (i, j) ← checkPair a b
    return (s.setFlags (compareFlags (s.reg i) (s.reg j))).advance 3

/-- SUB (R123). -/
def execSub (a b : Byte) (s : State) : Host.Outcome State Fault Refusal :=
  complete (opcodeOf (.sub a b)) s (aluInPlace (fun u v => .ok (aluSub u v)) a b s)

/-- DIV (R125): the indices are checked before the divisor (R204). -/
def execDiv (a b : Byte) (s : State) : Host.Outcome State Fault Refusal :=
  complete (opcodeOf (.div a b)) s (aluInPlace aluDiv a b s)

end Sys2Proof.Machine
end

