-- ==== Sys2Proof/Machine/Control.lean ====
section
/-! DEFINITION. CALL, RET, JMP, JEQ and JNE (44_control.md). -/

namespace Sys2Proof.Machine

/-- CALL (R171): push the return address pc + 2, then read the target index from memory at pc + 1, then jump. The
fetched operand byte is not used (C5, D15). -/
def execCall (_t : Byte) (s : State) : Host.Outcome State Fault Refusal :=
  complete (opcodeOf (.call _t)) s do
    let s₁ ← pushSpace s
    let s₂ ← memWrite s₁ s₁.sp.toNat (wrap (s₁.pc + 2))
    let t ← memRead s₂ (s₂.pc + 1)
    jumpThrough t s₂

/-- RET (R172). -/
def execRet (s : State) : Host.Outcome State Fault Refusal :=
  complete (opcodeOf .ret) s do
    let v ← popByte s
    return (popSpace s).jump v

/-- JEQ (R174): a jump that is not taken does not check its index (D4). -/
def execJeq (a : Byte) (s : State) : Host.Outcome State Fault Refusal :=
  complete (opcodeOf (.jeq a)) s (if s.fl.e = true then jumpThrough a s else .ok (s.advance 2))

/-- JNE (R175). -/
def execJne (a : Byte) (s : State) : Host.Outcome State Fault Refusal :=
  complete (opcodeOf (.jne a)) s (if s.fl.e = false then jumpThrough a s else .ok (s.advance 2))

/-- JMP (R173). -/
def execJmp (a : Byte) (s : State) : Host.Outcome State Fault Refusal :=
  complete (opcodeOf (.jmp a)) s (jumpThrough a s)

end Sys2Proof.Machine
end

