-- ==== Sys2Proof/Machine/LoadIoHalt.lean ====
section
/-! DEFINITION. LDI, PRN and HLT (41_load_io_halt.md). -/

namespace Sys2Proof.Machine

/-- LDI (R100). -/
def execLdi (a b : Byte) (s : State) : Host.Outcome State Fault Refusal :=
  complete (opcodeOf (.ldi a b)) s do
    let i ← checkReg a
    return (s.setReg i b).advance 3

/-- PRN (R101). -/
def execPrn (a : Byte) (s : State) : Host.Outcome State Fault Refusal :=
  complete (opcodeOf (.prn a)) s do
    let i ← checkReg a
    return (s.emit (s.reg i)).advance 2

/-- HLT (R103): the increment of pc is architectural. -/
def execHlt (s : State) : Host.Outcome State Fault Refusal :=
  complete (opcodeOf .hlt) s (.ok (s.advance 1).halt)

end Sys2Proof.Machine
end

