-- ==== Sys2Proof/Machine/Stack.lean ====
section
/-! DEFINITION. PUSH and POP (43_stack.md). -/

namespace Sys2Proof.Machine

/-- PUSH (R153): x[a] is read after the decrement, so PUSH R7 stores the decremented SP (D16). -/
def execPush (a : Byte) (s : State) : Host.Outcome State Fault Refusal :=
  complete (opcodeOf (.push a)) s do
    let i ← checkReg a
    let s₁ ← pushSpace s
    let s₂ ← memWrite s₁ s₁.sp.toNat (s₁.reg i)
    return s₂.advance 2

/-- POP (R154): SP is incremented after the write to x[a], so POP R7 leaves the popped byte plus 1 (D16). -/
def execPop (a : Byte) (s : State) : Host.Outcome State Fault Refusal :=
  complete (opcodeOf (.pop a)) s do
    let i ← checkReg a
    let v ← popByte s
    return (popSpace (s.setReg i v)).advance 2

end Sys2Proof.Machine
end

