-- ==== Sys2Proof/Machine/Fetch.lean ====
section
/-! DEFINITION. Fetch with lookahead (R82), decode (R83), and placing an instruction where the next fetch reads it. -/

namespace Sys2Proof.Machine

/-- The bytes of one fetch (R13, R82): temporaries of a step, not state (R31). -/
structure Fetched where
  ir : Byte
  a : Byte
  b : Byte
deriving DecidableEq, Repr

/-- Fetch and lookahead (R82): three reads in order, whatever the instruction's width. On a fault, its cause and the
opcode byte if that was read (R203). -/
def fetch (s : State) : Except (Cause × Option Byte) Fetched :=
  match memRead s s.pc with
  | .error c => .error (c, none)
  | .ok ir =>
    match memRead s (s.pc + 1) with
    | .error c => .error (c, some ir)
    | .ok a =>
      match memRead s (s.pc + 2) with
      | .error c => .error (c, some ir)
      | .ok b => .ok ⟨ir, a, b⟩

/-- Fetch and decode (R82, R83), in that order: a fetch out of range is reported ahead of a DecodeError (R204). -/
def fetchDecode (s : State) : Except (Cause × Option Byte) Instr :=
  match fetch s with
  | .error e => .error e
  | .ok f =>
    match decode s.aluExt f.ir f.a f.b with
    | .illegalOpcode ir => .error (.decodeError ir s.pc, some ir)
    | .instr i => .ok i

/-- The opcode byte is one that only `ALU_EXT` makes decodable (R66, D2). -/
def opcodeNeedsAluExt (ir : Byte) : Bool :=
  (lookupOpcode false ir).isNone && (lookupOpcode true ir).isSome

/-- Place an instruction word at pc, pc+1 and pc+2, as the loader could have (R5), on a core that can decode it: a
word of SUB or DIV also needs `ALU_EXT` (log entries 2 and 8). -/
def placeWord (s : State) (nbits w : Nat) : State :=
  { s with
    mem := ((s.mem.poke s.pc (wordByte nbits w 0)).poke (s.pc + 1) (wordByte nbits w 1)).poke (s.pc + 2)
      (wordByte nbits w 2)
    aluExt := s.aluExt || opcodeNeedsAluExt (wordByte nbits w 0) }

end Sys2Proof.Machine
end

