-- ==== Sys2Proof/Machine/Step.lean ====
section
/-! DEFINITION. One step of the core (R88). -/

namespace Sys2Proof.Machine

/-- One step (R81, R88): none unless the core is Running; then fetch, decode and execute. A fault that the fetch or the
decoder raises is taken like any other (R86): a next state whose `run` is Faulted. -/
def step (s : State) : Host.Outcome State Fault Refusal :=
  match s.run with
  | .halted => .fault .coreHalted
  | .faulted _ => .fault .coreFaulted
  | .running =>
    match fetchDecode s with
    | .error (c, ir) => .next (takeFault c ir s)
    | .ok i => exec i s

/-- `s` with an instruction word stored where `step` fetches its next instruction (log entry 8). -/
def State.withFetchWord (s : State) (nbits w : Nat) : State := placeWord s nbits w

end Sys2Proof.Machine
end

