-- ==== Sys2Proof/Laws/PerInstr.lean ====
section
/-! SUPPORT. Statements made of every instruction, one lemma per constructor. -/

namespace Sys2Proof.Laws.EncodedWidth

/-- The encoder writes as many bytes as the instruction is wide, and that is 1, 2 or 3 (R60, R61). -/
def Statement (i : Instr) : Prop := (encode i).length = width i ∧ 1 ≤ width i ∧ width i ≤ 3

theorem ldi (a b : Byte) : Statement (.ldi a b) := by simp [Statement, encode, operandBytes, width]
theorem prn (a : Byte) : Statement (.prn a) := by simp [Statement, encode, operandBytes, width]
theorem hlt : Statement .hlt := by simp [Statement, encode, operandBytes, width]
theorem mul (a b : Byte) : Statement (.mul a b) := by simp [Statement, encode, operandBytes, width]
theorem add (a b : Byte) : Statement (.add a b) := by simp [Statement, encode, operandBytes, width]
theorem push (a : Byte) : Statement (.push a) := by simp [Statement, encode, operandBytes, width]
theorem pop (a : Byte) : Statement (.pop a) := by simp [Statement, encode, operandBytes, width]
theorem call (t : Byte) : Statement (.call t) := by simp [Statement, encode, operandBytes, width]
theorem ret : Statement .ret := by simp [Statement, encode, operandBytes, width]
theorem cmp (a b : Byte) : Statement (.cmp a b) := by simp [Statement, encode, operandBytes, width]
theorem jeq (a : Byte) : Statement (.jeq a) := by simp [Statement, encode, operandBytes, width]
theorem jne (a : Byte) : Statement (.jne a) := by simp [Statement, encode, operandBytes, width]
theorem jmp (a : Byte) : Statement (.jmp a) := by simp [Statement, encode, operandBytes, width]
theorem sub (a b : Byte) : Statement (.sub a b) := by simp [Statement, encode, operandBytes, width]
theorem div (a b : Byte) : Statement (.div a b) := by simp [Statement, encode, operandBytes, width]

end Sys2Proof.Laws.EncodedWidth
end

