-- ==== Sys2Proof/Machine/Load.lean ====
section
/-! DEFINITION. The memory-image interface (R5): from machine construction to the launch state of R231. The loader is
outside the core (R4); what it leaves in memory, and when it fails, is modelled here (log entries 8 and 9). -/

namespace Sys2Proof.Machine

/-- The ways a load fails (R202); each is fatal before any step. -/
inductive LoadError where
  /-- The program file does not exist. -/
  | missingFile
  /-- A line that is not a comment has malformed numeric content (R71). -/
  | malformedLine
  /-- More than 256 bytes (R71, R233, D22). -/
  | oversized
deriving DecidableEq, Repr

/-- Write the bytes at ascending addresses from `base` on. -/
def loadFrom : List Byte → Nat → State → State
  | [], _, s => s
  | b :: bs, base, s => loadFrom bs (base + 1) { s with mem := s.mem.poke base b }

/-- Byte k of the image becomes mem[k] (R71, R231). -/
def loadImage (image : List Byte) (s : State) : Except LoadError State :=
  if Config.memSize < image.length then .error .oversized else .ok (loadFrom image 0 s)

/-- White space within a line: space, tab, carriage return, line feed, vertical tab and form feed. DESIGN CHOICE
(log entry 9): the source does not say which characters are white space; unsafe. -/
def isBlank (c : Char) : Bool := c == ' ' || (9 ≤ c.toNat && c.toNat ≤ 13)

/-- A text without the characters of a kind at its end. -/
def dropAtEnd (p : Char → Bool) (t : List Char) : List Char := (t.reverse.dropWhile p).reverse

/-- A digit of a binary literal. -/
def isBinaryDigit (c : Char) : Bool := c == '0' || c == '1'

/-- The value of a binary literal, most significant digit first (R11). -/
def binaryValue (lit : List Char) : Nat := lit.foldl (fun n c => 2 * n + (if c == '1' then 1 else 0)) 0

/-- One line of program text (R71): its byte, or none for a line that is skipped.

- R71 states these: blank lines and comment-only lines are skipped; eight binary digits, with a comment after them or
  not, are a byte; other content than binary digits and white space around them is malformed.
- DEDUCED (log entry 9): a line of white space alone is a blank line, and white space before `#` leaves a line
  comment-only, since neither holds a literal; spaces between a literal and a comment are accepted, as in the loader
  text of P1.
- Left open by the source (N14), and so `Config.openLine`'s to decide (log entry 9): all other white space around a
  literal, which is any before it, any after it with no comment behind, and any but spaces before a comment; and a
  literal that has not exactly eight digits. -/
def parseLine (line : List Char) : Except LoadError (Option Byte) :=
  let content := line.takeWhile (fun c => c != '#')
  let commented := content.length < line.length
  let literal := if commented then dropAtEnd (fun c => c == ' ') content else content
  if content.all isBlank then .ok none
  else if literal.length == 8 && literal.all isBinaryDigit then .ok (some (wrap (binaryValue literal)))
  else if (dropAtEnd isBlank (content.dropWhile isBlank)).all isBinaryDigit then
    match Config.openLine line with
    | some b => .ok (some b)
    | none => .error .malformedLine
  else .error .malformedLine

/-- The bytes of a program text, in the order of its lines (R71). -/
def parseText : List (List Char) → Except LoadError (List Byte)
  | [] => .ok []
  | line :: rest =>
    match parseLine line with
    | .error e => .error e
    | .ok found =>
      match parseText rest with
      | .error e => .error e
      | .ok bytes => .ok (found.toList ++ bytes)

/-- The launch state (R231) for a program file, absent or given by its lines, in a configuration and for a draw. -/
def launch (file : Option (List (List Char))) (aluExt : Bool) (regInit : Vector Byte 7) : Except LoadError State :=
  match file with
  | none => .error .missingFile
  | some lines =>
    match parseText lines with
    | .error e => .error e
    | .ok image => loadImage image (State.construct aluExt regInit)

end Sys2Proof.Machine
end

