-- ==== Sys2Proof/Machine/Observe.lean ====
section
/-! DEFINITION. What the host sees of the core: the exit status (R7, R213), the trace tuple (R8, R212) and the lines of
PRN's output (R102). Observing changes no state. -/

namespace Sys2Proof.Machine

/-- The code of a cause, which is also its exit status (R201, D11). -/
def Cause.code : Cause → Nat
  | .decodeError _ _ => 1
  | .arithmeticError _ => 3
  | .stackOverflow _ => 4
  | .stackUnderflow _ => 5
  | .outOfRange _ => 6

/-- The exit status of a final run state (R213); a core that is still Running has none (R206). -/
def exitStatus : RunState → Option Nat
  | .running => none
  | .halted => some 0
  | .faulted rec => some rec.cause.code

/-- The exit status of every failed load (R202, D11). -/
def loadErrorStatus : LoadError → Nat
  | .missingFile => 2
  | .malformedLine => 2
  | .oversized => 2

/-- The trace tuple of R212, sampled at the start of a step. A byte at an address above 255 is absent (D21). -/
structure Trace where
  pc : Nat
  ir : Option Byte
  a : Option Byte
  b : Option Byte
  regs : Vector Byte 8
deriving DecidableEq, Repr

/-- The byte at an address, absent above 255 (D21). -/
def traceByte (s : State) (addr : Nat) : Option Byte :=
  if addr < Config.memSize then some (s.mem.read addr) else none

/-- Sample the trace (R8, R212). -/
def traceOf (s : State) : Trace where
  pc := s.pc
  ir := traceByte s s.pc
  a := traceByte s (s.pc + 1)
  b := traceByte s (s.pc + 2)
  regs := s.regs

/-- The decimal digits of an emitted byte, with no leading zeros and no sign (R102). -/
def decimalDigits (v : Byte) : List Char := Nat.toDigits 10 v.toNat

/-- The lines the host shows for the output so far, one per event, each without its line end (R6, R102). -/
def outputLines (s : State) : List (List Char) := s.out.map decimalDigits

end Sys2Proof.Machine
end

