-- ==== Sys2Proof/Machine/Assembler.lean ====
section
/-! DEFINITION. The assembler syntax of R70, as a notation for instructions: from a line of text to an instruction and
back. The core never sees it (R70; log entry 14). -/

namespace Sys2Proof.Machine

/-- A register, `R0` to `R7` (R70). -/
def parseRegister : List Char → Option Byte
  | ['R', c] => if 48 ≤ c.toNat ∧ c.toNat ≤ 55 then some (wrap (c.toNat - 48)) else none
  | _ => none

/-- The value of a digit of a decimal or hexadecimal number. -/
def digitValue (c : Char) : Option Nat :=
  if 48 ≤ c.toNat ∧ c.toNat ≤ 57 then some (c.toNat - 48)
  else if 65 ≤ c.toNat ∧ c.toNat ≤ 70 then some (c.toNat - 55)
  else if 97 ≤ c.toNat ∧ c.toNat ≤ 102 then some (c.toNat - 87)
  else none

/-- The value of the digits in a base, continuing from a value. -/
def parseDigits (base : Nat) : List Char → Nat → Option Nat
  | [], n => some n
  | c :: cs, n =>
    match digitValue c with
    | some d => if d < base then parseDigits base cs (n * base + d) else none
    | none => none

/-- An immediate: an 8-character binary literal, `0x` hex or a decimal number, with value 0..255 (R11, R70). -/
def parseImmediate (t : List Char) : Option Byte :=
  if t.length == 8 && t.all isBinaryDigit then some (wrap (binaryValue t))
  else
    let value :=
      match t with
      | [] => none
      | '0' :: 'x' :: [] => none
      | '0' :: 'x' :: digits => parseDigits 16 digits 0
      | digits => parseDigits 10 digits 0
    match value with
    | some n => if n < 256 then some (wrap n) else none
    | none => none

/-- A text up to a character, and what follows the character. -/
def cutAt (c : Char) (t : List Char) : List Char × List Char :=
  (t.takeWhile (fun d => d != c), (t.dropWhile (fun d => d != c)).drop 1)

/-- A form `OP Ra,Rb` (R70). -/
def parsePair (op : Byte → Byte → Instr) (operands : List Char) : Option Instr :=
  match parseRegister (cutAt ',' operands).1, parseRegister (cutAt ',' operands).2 with
  | some a, some b => some (op a b)
  | _, _ => none

/-- The instruction that a line of assembler text denotes (R70): the mnemonic, a space, and the operands separated by a
comma, in the order of the encoding. -/
def assemble (line : List Char) : Option Instr :=
  let operands := (cutAt ' ' line).2
  match (cutAt ' ' line).1 with
  | ['H', 'L', 'T'] => if line.length = 3 then some .hlt else none
  | ['R', 'E', 'T'] => if line.length = 3 then some .ret else none
  | ['P', 'R', 'N'] => (parseRegister operands).map .prn
  | ['P', 'U', 'S', 'H'] => (parseRegister operands).map .push
  | ['P', 'O', 'P'] => (parseRegister operands).map .pop
  | ['C', 'A', 'L', 'L'] => (parseRegister operands).map .call
  | ['J', 'M', 'P'] => (parseRegister operands).map .jmp
  | ['J', 'E', 'Q'] => (parseRegister operands).map .jeq
  | ['J', 'N', 'E'] => (parseRegister operands).map .jne
  | ['L', 'D', 'I'] =>
    match parseRegister (cutAt ',' operands).1, parseImmediate (cutAt ',' operands).2 with
    | some a, some b => some (.ldi a b)
    | _, _ => none
  | ['A', 'D', 'D'] => parsePair .add operands
  | ['S', 'U', 'B'] => parsePair .sub operands
  | ['M', 'U', 'L'] => parsePair .mul operands
  | ['D', 'I', 'V'] => parsePair .div operands
  | ['C', 'M', 'P'] => parsePair .cmp operands
  | _ => none

/-- The text of a register; an index of 8 or more is no register and has none (R70). -/
def registerText (idx : Byte) : Option (List Char) :=
  if idx.toNat < 8 then some ('R' :: decimalDigits idx) else none

/-- A mnemonic, a space and one register. -/
def textR (mnemonic : List Char) (a : Byte) : Option (List Char) :=
  (registerText a).map fun t => mnemonic ++ ' ' :: t

/-- A mnemonic, a space and two registers. -/
def textRR (mnemonic : List Char) (a b : Byte) : Option (List Char) :=
  match textR mnemonic a, registerText b with
  | some t, some u => some (t ++ ',' :: u)
  | _, _ => none

/-- The assembler text of an instruction, its immediate in decimal (R70). -/
def assemblerText : Instr → Option (List Char)
  | .ldi a b => (textR ['L', 'D', 'I'] a).map fun t => t ++ ',' :: decimalDigits b
  | .prn a => textR ['P', 'R', 'N'] a
  | .hlt => some ['H', 'L', 'T']
  | .mul a b => textRR ['M', 'U', 'L'] a b
  | .add a b => textRR ['A', 'D', 'D'] a b
  | .push a => textR ['P', 'U', 'S', 'H'] a
  | .pop a => textR ['P', 'O', 'P'] a
  | .call t => textR ['C', 'A', 'L', 'L'] t
  | .ret => some ['R', 'E', 'T']
  | .cmp a b => textRR ['C', 'M', 'P'] a b
  | .jeq a => textR ['J', 'E', 'Q'] a
  | .jne a => textR ['J', 'N', 'E'] a
  | .jmp a => textR ['J', 'M', 'P'] a
  | .sub a b => textRR ['S', 'U', 'B'] a b
  | .div a b => textRR ['D', 'I', 'V'] a b

end Sys2Proof.Machine
end

