-- ==== Sys2Proof/Safety.lean ====
section
/-! DEFINITION. The terms claims use: the state an outcome leaves, the end of a run (R89, R90), and the invariant of
the machine. -/

namespace Sys2Proof.Machine

/-- The next state of an outcome, if it has one. -/
def nextOf : Host.Outcome State Fault Refusal → Option State
  | .next s => some s
  | .fault _ => none
  | .refused _ => none

/-- The run state is terminal (R28, R90): Halted or Faulted. -/
def RunState.terminal : RunState → Bool
  | .running => false
  | .halted => true
  | .faulted _ => true

/-- The record of a run state, if it is Faulted. -/
def RunState.record? : RunState → Option FaultRecord
  | .running => none
  | .halted => none
  | .faulted rec => some rec

/-- A run under fuel (R89): at most n steps, none once the core has halted or faulted. -/
def runFor : Nat → State → State
  | 0, s => s
  | n + 1, s =>
    match step s with
    | .next t => runFor n t
    | .fault _ => s
    | .refused _ => s

/-- A safe state of a run: the core has not faulted. -/
def State.safe (s : State) : Bool := s.run.record?.isNone

/-- At most one flag is set (R25): none before the first CMP, exactly one after. -/
def Flags.exclusive (f : Flags) : Bool := !(f.e && f.l) && !(f.e && f.g) && !(f.l && f.g)

/-- Exactly one flag is set (R25, R126). -/
def Flags.exactlyOne (f : Flags) : Bool := f.exclusive && (f.e || f.l || f.g)

/-- The opcode byte a fault record gives for an instruction at pc (R203): none when pc is outside memory. -/
def opcodeAt (s : State) : Option Byte := traceByte s s.pc

/-- A Faulted core still points at the faulting instruction, and its record says so (R203). -/
def State.recordPrecise (s : State) : Bool :=
  match s.run with
  | .running => true
  | .halted => true
  | .faulted rec => rec.pc == s.pc && rec.ir == opcodeAt s

/-- The invariant of the machine: pc is in 0..256 (R27), memory is in canonical form over addresses 0..255 (R40), the
flags are mutually exclusive (R25), and a fault record is precise (R203). -/
abbrev State.Inv (s : State) : Prop :=
  s.pc ≤ 256 ∧ s.mem.wf ∧ s.fl.exclusive = true ∧ s.recordPrecise = true

end Sys2Proof.Machine
end

