-- ==== Sys2Proof/Certificates/Slice0/Obligations.lean ====
section
/-! DEFINITION. The statements for the provers. Each docstring names the rules of spec/ it formalises. The result
statements give the whole next state, so what they do not mention is unchanged. -/

open Sys2Proof Sys2Proof.Machine

/-! ## Results, traps and encodings, one statement per instruction -/

/-- R100, LDI: operands, encoding, pseudocode, flags, exceptions. -/
def Obligations.LdiLoadsImmediate : Prop :=
  ∀ (s : State) (a b : Byte),
    (∀ h : a.toNat < 8, exec (.ldi a b) s = .next { s with regs := s.regs.set a.toNat b h, pc := s.pc + 3 }) ∧
    (8 ≤ a.toNat → exec (.ldi a b) s =
      .next { s with run := .faulted ⟨.outOfRange (.register a), s.pc, some 0x82#8⟩ }) ∧
    encode (.ldi a b) = [0x82#8, a, b] ∧
    ∀ e, decode e 0x82#8 a b = .instr (.ldi a b)

/-- R101, PRN. When it faults nothing is emitted. -/
def Obligations.PrnEmitsRegister : Prop :=
  ∀ (s : State) (a : Byte),
    (∀ h : a.toNat < 8, exec (.prn a) s = .next { s with out := s.out ++ [s.regs[a.toNat]], pc := s.pc + 2 }) ∧
    (8 ≤ a.toNat → exec (.prn a) s =
      .next { s with run := .faulted ⟨.outOfRange (.register a), s.pc, some 0x47#8⟩ }) ∧
    encode (.prn a) = [0x47#8, a] ∧
    ∀ e b, decode e 0x47#8 a b = .instr (.prn a)

/-- R103, HLT: pc + 1 and Halted, nothing else; at 254 and 255 the lookahead faults; there is no further step. -/
def Obligations.HltHaltsAfterIncrement : Prop :=
  (∀ s : State, exec .hlt s = .next { s with pc := s.pc + 1, run := .halted }) ∧
  encode .hlt = [0x01#8] ∧
  (∀ e a b, decode e 0x01#8 a b = .instr .hlt) ∧
  (∀ s : State, s.run = .running → (s.pc = 254 ∨ s.pc = 255) → s.mem.read s.pc = 0x01#8 →
    step s = .next { s with run := .faulted ⟨.outOfRange (.memory 256), s.pc, some 0x01#8⟩ }) ∧
  (∀ s t : State, exec .hlt s = .next t → exitStatus t.run = some 0 ∧ ∀ u, step t ≠ .next u)

/-- R124, MUL. The byte 0xA2 is the spec's default D1 (log entry 3). -/
def Obligations.MulWrapsProduct : Prop :=
  ∀ (s : State) (a b : Byte),
    (∀ (ha : a.toNat < 8) (hb : b.toNat < 8), exec (.mul a b) s = .next { s with
      regs := s.regs.set a.toNat (BitVec.ofNat 8 ((s.regs[a.toNat].toNat * s.regs[b.toNat].toNat) % 256)) ha
      pc := s.pc + 3 }) ∧
    (8 ≤ a.toNat → exec (.mul a b) s =
      .next { s with run := .faulted ⟨.outOfRange (.register a), s.pc, some 0xA2#8⟩ }) ∧
    (a.toNat < 8 → 8 ≤ b.toNat → exec (.mul a b) s =
      .next { s with run := .faulted ⟨.outOfRange (.register b), s.pc, some 0xA2#8⟩ }) ∧
    encode (.mul a b) = [0xA2#8, a, b] ∧
    ∀ e, decode e 0xA2#8 a b = .instr (.mul a b)

/-- R122, ADD. The byte 0xA0 is the spec's default D1 (log entry 3). -/
def Obligations.AddWrapsSum : Prop :=
  ∀ (s : State) (a b : Byte),
    (∀ (ha : a.toNat < 8) (hb : b.toNat < 8), exec (.add a b) s = .next { s with
      regs := s.regs.set a.toNat (BitVec.ofNat 8 ((s.regs[a.toNat].toNat + s.regs[b.toNat].toNat) % 256)) ha
      pc := s.pc + 3 }) ∧
    (8 ≤ a.toNat → exec (.add a b) s =
      .next { s with run := .faulted ⟨.outOfRange (.register a), s.pc, some 0xA0#8⟩ }) ∧
    (a.toNat < 8 → 8 ≤ b.toNat → exec (.add a b) s =
      .next { s with run := .faulted ⟨.outOfRange (.register b), s.pc, some 0xA0#8⟩ }) ∧
    encode (.add a b) = [0xA0#8, a, b] ∧
    ∀ e, decode e 0xA0#8 a b = .instr (.add a b)

/-- R153 with R151, PUSH: x[a] is read after the decrement (D16), so PUSH R7 stores the decremented SP. The
byte 0x45 is the spec's default D1 (log entry 3). -/
def Obligations.PushStoresBelowSp : Prop :=
  ∀ (s : State) (a : Byte),
    (∀ h : a.toNat < 8, s.regs[7] ≠ 0#8 → exec (.push a) s = .next { s with
      regs := s.regs.set 7 (s.regs[7] - 1#8)
      mem := s.mem.write (s.regs[7].toNat - 1) (s.regs.set 7 (s.regs[7] - 1#8))[a.toNat]
      pc := s.pc + 2 }) ∧
    (8 ≤ a.toNat → exec (.push a) s =
      .next { s with run := .faulted ⟨.outOfRange (.register a), s.pc, some 0x45#8⟩ }) ∧
    (a.toNat < 8 → s.regs[7] = 0#8 → exec (.push a) s =
      .next { s with run := .faulted ⟨.stackOverflow 0#8, s.pc, some 0x45#8⟩ }) ∧
    encode (.push a) = [0x45#8, a] ∧
    ∀ e b, decode e 0x45#8 a b = .instr (.push a)

/-- R154 with R152, POP: SP is incremented after the write to x[a] (D16), so POP R7 leaves the popped byte plus 1
modulo 256. The byte 0x46 is the spec's default D1 (log entry 3). -/
def Obligations.PopLoadsFromSp : Prop :=
  ∀ (s : State) (a : Byte),
    (∀ h : a.toNat < 8, s.regs[7].toNat < 0xF4 → a.toNat ≠ 7 → exec (.pop a) s = .next { s with
      regs := (s.regs.set a.toNat (s.mem.read s.regs[7].toNat) h).set 7 (s.regs[7] + 1#8)
      pc := s.pc + 2 }) ∧
    (a.toNat = 7 → s.regs[7].toNat < 0xF4 → exec (.pop a) s = .next { s with
      regs := s.regs.set 7 (BitVec.ofNat 8 (((s.mem.read s.regs[7].toNat).toNat + 1) % 256))
      pc := s.pc + 2 }) ∧
    (8 ≤ a.toNat → exec (.pop a) s =
      .next { s with run := .faulted ⟨.outOfRange (.register a), s.pc, some 0x46#8⟩ }) ∧
    (a.toNat < 8 → 0xF4 ≤ s.regs[7].toNat → exec (.pop a) s =
      .next { s with run := .faulted ⟨.stackUnderflow s.regs[7], s.pc, some 0x46#8⟩ }) ∧
    encode (.pop a) = [0x46#8, a] ∧
    ∀ e b, decode e 0x46#8 a b = .instr (.pop a)

/-- R171, CALL: push pc + 2, read the index from memory at pc + 1 after the push, jump through it (D15). A fetch admits
only pc ≤ 253. The byte the instruction was fetched with, x, has no say. The last clause is the corner case of the
stack just above the code: the index is then the return address. The byte 0x50 is the spec's default D1 (log
entry 3). -/
def Obligations.CallPushesAndJumps : Prop :=
  ∀ (s : State) (x : Byte), s.pc ≤ 253 →
    (∀ (m : Memory) (r : Vector Byte 8), s.regs[7] ≠ 0#8 →
      m = s.mem.write (s.regs[7].toNat - 1) (BitVec.ofNat 8 (s.pc + 2)) → r = s.regs.set 7 (s.regs[7] - 1#8) →
      (∀ h : (m.read (s.pc + 1)).toNat < 8, exec (.call x) s =
        .next { s with regs := r, mem := m, pc := r[(m.read (s.pc + 1)).toNat].toNat }) ∧
      (8 ≤ (m.read (s.pc + 1)).toNat → exec (.call x) s = .next { s with
        run := .faulted ⟨.outOfRange (.register (m.read (s.pc + 1))), s.pc, some 0x50#8⟩ }) ∧
      (s.regs[7].toNat - 1 ≠ s.pc + 1 → m.read (s.pc + 1) = s.mem.read (s.pc + 1)) ∧
      (s.regs[7].toNat - 1 = s.pc + 1 → m.read (s.pc + 1) = BitVec.ofNat 8 (s.pc + 2))) ∧
    (s.regs[7] = 0#8 → exec (.call x) s =
      .next { s with run := .faulted ⟨.stackOverflow 0#8, s.pc, some 0x50#8⟩ }) ∧
    encode (.call x) = [0x50#8, x] ∧
    ∀ e b, decode e 0x50#8 x b = .instr (.call x)

/-- R172 with R152, RET. The byte 0x11 is the spec's default D1 (log entry 3). -/
def Obligations.RetPopsPc : Prop :=
  (∀ s : State, s.regs[7].toNat < 0xF4 → exec .ret s = .next { s with
    regs := s.regs.set 7 (s.regs[7] + 1#8)
    pc := (s.mem.read s.regs[7].toNat).toNat }) ∧
  (∀ s : State, 0xF4 ≤ s.regs[7].toNat → exec .ret s =
    .next { s with run := .faulted ⟨.stackUnderflow s.regs[7], s.pc, some 0x11#8⟩ }) ∧
  encode .ret = [0x11#8] ∧
  ∀ e a b, decode e 0x11#8 a b = .instr .ret

/-- R126, CMP: unsigned; no register is written; exactly one flag is set. The byte 0xA7 is the spec's default D1
(log entry 3). -/
def Obligations.CmpSetsOneFlag : Prop :=
  ∀ (s : State) (a b : Byte),
    (∀ (ha : a.toNat < 8) (hb : b.toNat < 8), ∃ f : Flags, exec (.cmp a b) s = .next { s with
      fl := f
      pc := s.pc + 3 } ∧
      (f.e = true ↔ s.regs[a.toNat].toNat = s.regs[b.toNat].toNat) ∧
      (f.l = true ↔ s.regs[a.toNat].toNat < s.regs[b.toNat].toNat) ∧
      (f.g = true ↔ s.regs[a.toNat].toNat > s.regs[b.toNat].toNat) ∧
      f.exactlyOne = true) ∧
    (8 ≤ a.toNat → exec (.cmp a b) s =
      .next { s with run := .faulted ⟨.outOfRange (.register a), s.pc, some 0xA7#8⟩ }) ∧
    (a.toNat < 8 → 8 ≤ b.toNat → exec (.cmp a b) s =
      .next { s with run := .faulted ⟨.outOfRange (.register b), s.pc, some 0xA7#8⟩ }) ∧
    encode (.cmp a b) = [0xA7#8, a, b] ∧
    ∀ e, decode e 0xA7#8 a b = .instr (.cmp a b)

/-- R174, JEQ: the index is checked only when the jump is taken (D4). The byte 0x55 is the spec's default D1
(log entry 3). -/
def Obligations.JeqBranchesOnEqual : Prop :=
  ∀ (s : State) (a : Byte),
    (∀ h : a.toNat < 8, s.fl.e = true → exec (.jeq a) s = .next { s with pc := s.regs[a.toNat].toNat }) ∧
    (s.fl.e = false → exec (.jeq a) s = .next { s with pc := s.pc + 2 }) ∧
    (8 ≤ a.toNat → s.fl.e = true → exec (.jeq a) s =
      .next { s with run := .faulted ⟨.outOfRange (.register a), s.pc, some 0x55#8⟩ }) ∧
    encode (.jeq a) = [0x55#8, a] ∧
    ∀ e b, decode e 0x55#8 a b = .instr (.jeq a)

/-- R175, JNE: the index is checked only when the jump is taken (D4). The byte 0x56 is the spec's default D1
(log entry 3). -/
def Obligations.JneBranchesOnNotEqual : Prop :=
  ∀ (s : State) (a : Byte),
    (∀ h : a.toNat < 8, s.fl.e = false → exec (.jne a) s = .next { s with pc := s.regs[a.toNat].toNat }) ∧
    (s.fl.e = true → exec (.jne a) s = .next { s with pc := s.pc + 2 }) ∧
    (8 ≤ a.toNat → s.fl.e = false → exec (.jne a) s =
      .next { s with run := .faulted ⟨.outOfRange (.register a), s.pc, some 0x56#8⟩ }) ∧
    encode (.jne a) = [0x56#8, a] ∧
    ∀ e b, decode e 0x56#8 a b = .instr (.jne a)

/-- R173, JMP. The byte 0x54 is the spec's default D1 (log entry 3). -/
def Obligations.JmpJumpsThroughRegister : Prop :=
  ∀ (s : State) (a : Byte),
    (∀ h : a.toNat < 8, exec (.jmp a) s = .next { s with pc := s.regs[a.toNat].toNat }) ∧
    (8 ≤ a.toNat → exec (.jmp a) s =
      .next { s with run := .faulted ⟨.outOfRange (.register a), s.pc, some 0x54#8⟩ }) ∧
    encode (.jmp a) = [0x54#8, a] ∧
    ∀ e b, decode e 0x54#8 a b = .instr (.jmp a)

/-- R123, SUB, which only `ALU_EXT` makes decodable (D2). The byte 0xA1 is the spec's default D1 (log entry 3). -/
def Obligations.SubWrapsDifference : Prop :=
  ∀ (s : State) (a b : Byte),
    (∀ (ha : a.toNat < 8) (hb : b.toNat < 8), exec (.sub a b) s = .next { s with
      regs := s.regs.set a.toNat
        (BitVec.ofNat 8 ((s.regs[a.toNat].toNat + 256 - s.regs[b.toNat].toNat) % 256)) ha
      pc := s.pc + 3 }) ∧
    (8 ≤ a.toNat → exec (.sub a b) s =
      .next { s with run := .faulted ⟨.outOfRange (.register a), s.pc, some 0xA1#8⟩ }) ∧
    (a.toNat < 8 → 8 ≤ b.toNat → exec (.sub a b) s =
      .next { s with run := .faulted ⟨.outOfRange (.register b), s.pc, some 0xA1#8⟩ }) ∧
    encode (.sub a b) = [0xA1#8, a, b] ∧
    decode true 0xA1#8 a b = .instr (.sub a b) ∧
    decode false 0xA1#8 a b = .illegalOpcode 0xA1#8

/-- R125, DIV, which only `ALU_EXT` makes decodable (D2): the indices are checked before the divisor. The
byte 0xA3 is the spec's default D1 (log entry 3). -/
def Obligations.DivFloorsOrFaults : Prop :=
  ∀ (s : State) (a b : Byte),
    (∀ (ha : a.toNat < 8) (hb : b.toNat < 8), s.regs[b.toNat] ≠ 0#8 → exec (.div a b) s = .next { s with
      regs := s.regs.set a.toNat (BitVec.ofNat 8 (s.regs[a.toNat].toNat / s.regs[b.toNat].toNat)) ha
      pc := s.pc + 3 }) ∧
    (∀ (_ : a.toNat < 8) (hb : b.toNat < 8), s.regs[b.toNat] = 0#8 → exec (.div a b) s =
      .next { s with run := .faulted ⟨.arithmeticError .divisionByZero, s.pc, some 0xA3#8⟩ }) ∧
    (8 ≤ a.toNat → exec (.div a b) s =
      .next { s with run := .faulted ⟨.outOfRange (.register a), s.pc, some 0xA3#8⟩ }) ∧
    (a.toNat < 8 → 8 ≤ b.toNat → exec (.div a b) s =
      .next { s with run := .faulted ⟨.outOfRange (.register b), s.pc, some 0xA3#8⟩ }) ∧
    encode (.div a b) = [0xA3#8, a, b] ∧
    decode true 0xA3#8 a b = .instr (.div a b) ∧
    decode false 0xA3#8 a b = .illegalOpcode 0xA3#8

/-! ## Frames -/

/-- The frame of LDI, ADD, SUB, MUL and DIV: register a alone, and pc; a fault changes `run` alone (R86, R100, R121). -/
def Obligations.RegisterWritersFrame : Prop :=
  ∀ (i : Instr) (a b : Byte) (s t : State),
    (i = .ldi a b ∨ i = .add a b ∨ i = .sub a b ∨ i = .mul a b ∨ i = .div a b) →
    exec i s = .next t →
    (∀ (k : Nat) (h : k < 8), k ≠ a.toNat → t.regs[k] = s.regs[k]) ∧
    t.fl = s.fl ∧ t.out = s.out ∧ t.aluExt = s.aluExt ∧
    (t.run = s.run ∨ ∃ rec, t.run = .faulted rec) ∧
    ∀ x, t.mem.read x = s.mem.read x

/-- The frame of PRN, HLT, CMP, JMP, JEQ and JNE: no register and no memory; the output only by PRN, the flags only by
CMP, the run state only by HLT or a fault (R101, R103, R126, R173 to R175). -/
def Obligations.NonWritersFrame : Prop :=
  ∀ (i : Instr) (a b : Byte) (s t : State),
    (i = .prn a ∨ i = .hlt ∨ i = .cmp a b ∨ i = .jmp a ∨ i = .jeq a ∨ i = .jne a) →
    exec i s = .next t →
    (∀ (k : Nat) (h : k < 8), t.regs[k] = s.regs[k]) ∧
    (i ≠ .cmp a b → t.fl = s.fl) ∧
    (i ≠ .prn a → t.out = s.out) ∧
    t.aluExt = s.aluExt ∧
    (t.run = s.run ∨ (i = .hlt ∧ t.run = .halted) ∨ ∃ rec, t.run = .faulted rec) ∧
    ∀ x, t.mem.read x = s.mem.read x

/-- The frame of PUSH and CALL: register 7 alone; memory alone at the byte the push stores to, which is SP after
`pushSpace` (R151, R153, R171); where the push is not admitted, no byte. -/
def Obligations.PushersFrame : Prop :=
  ∀ (i : Instr) (a : Byte) (s t : State),
    (i = .push a ∨ i = .call a) →
    exec i s = .next t →
    (∀ (k : Nat) (h : k < 8), k ≠ 7 → t.regs[k] = s.regs[k]) ∧
    t.fl = s.fl ∧ t.out = s.out ∧ t.aluExt = s.aluExt ∧
    (t.run = s.run ∨ ∃ rec, t.run = .faulted rec) ∧
    (∀ s₁, pushSpace s = .ok s₁ → ∀ x, x ≠ s₁.sp.toNat → t.mem.read x = s.mem.read x) ∧
    (∀ c, pushSpace s = .error c → ∀ x, t.mem.read x = s.mem.read x)

/-- The frame of POP and RET: POP writes register a and register 7, RET register 7 alone; no memory (R154, R172). -/
def Obligations.PoppersFrame : Prop :=
  ∀ (i : Instr) (a : Byte) (s t : State),
    (i = .pop a ∨ i = .ret) →
    exec i s = .next t →
    (∀ (k : Nat) (h : k < 8), k ≠ 7 → (i = .pop a → k ≠ a.toNat) → t.regs[k] = s.regs[k]) ∧
    t.fl = s.fl ∧ t.out = s.out ∧ t.aluExt = s.aluExt ∧
    (t.run = s.run ∨ ∃ rec, t.run = .faulted rec) ∧
    ∀ x, t.mem.read x = s.mem.read x

/-! ## Encoding -/

/-- The opcode table of R66: the byte, the width and the condition of each row, and what it builds from the sample operand
bytes 0x12 and 0x34 (for all operands, see the statement of each instruction and DecodeOfEncode). The bytes other than
those of LDI, PRN and HLT are the spec's default D1 (log entry 3). -/
def Obligations.OpcodeTableRows : Prop :=
  opcodeTable.map (fun r => (r.opcode, r.width, r.aluExtOnly, r.build 0x12#8 0x34#8)) =
    [ (0x82#8, 3, false, .ldi 0x12#8 0x34#8), (0x47#8, 2, false, .prn 0x12#8), (0x01#8, 1, false, .hlt),
      (0xA2#8, 3, false, .mul 0x12#8 0x34#8), (0xA0#8, 3, false, .add 0x12#8 0x34#8),
      (0x45#8, 2, false, .push 0x12#8), (0x46#8, 2, false, .pop 0x12#8), (0x50#8, 2, false, .call 0x12#8),
      (0x11#8, 1, false, .ret), (0xA7#8, 3, false, .cmp 0x12#8 0x34#8), (0x55#8, 2, false, .jeq 0x12#8),
      (0x56#8, 2, false, .jne 0x12#8), (0x54#8, 2, false, .jmp 0x12#8),
      (0xA1#8, 3, true, .sub 0x12#8 0x34#8), (0xA3#8, 3, true, .div 0x12#8 0x34#8) ]

/-- A few words of the table written out from the rules' encodings: LDI (R100), ADD (R122), DIV (R125), PUSH (R153),
CALL (R171) and RET (R172), and the illegal byte 0x00 (R67). The bytes but LDI's are the spec's default D1 (log entry 3).
The DIV word decodes because `decodeTableWord` asks the decoder with `ALU_EXT` true, the model's choice (log entry 2). -/
def Obligations.SampleWordsDecode : Prop :=
  decodeTableWord 24 0x080082 = some (.ldi 0#8 8#8) ∧
  decodeTableWord 24 0x0100A0 = some (.add 0#8 1#8) ∧
  decodeTableWord 24 0x0100A3 = some (.div 0#8 1#8) ∧
  decodeTableWord 16 0x0045 = some (.push 0#8) ∧
  decodeTableWord 16 0x0150 = some (.call 1#8) ∧
  decodeTableWord 8 0x11 = some .ret ∧
  decodeTableWord 8 0x00 = none

/-- Decode after encode, for every instruction of a configuration, whatever bytes the lookahead reads past its width
(R60, R61, R66, R68). -/
def Obligations.DecodeOfEncode : Prop :=
  ∀ (e : Bool) (i : Instr) (ir a b : Byte) (past : List Byte),
    i.wellFormed e = true → encode i ++ past = [ir, a, b] → decode e ir a b = .instr i

/-- What the decoder reads is well formed, and the bytes it read it from are its encoding (R62, R63, R66): every word
has at most one meaning. -/
def Obligations.EncodeOfDecode : Prop :=
  ∀ (e : Bool) (i : Instr) (ir a b : Byte),
    decode e ir a b = .instr i → i.wellFormed e = true ∧ encode i = [ir, a, b].take (width i)

/-- R67: a byte outside the table raises DecodeError (R83), and there are 243 or 241 such bytes; 0x00 is one. The
table's bytes other than 0x82, 0x47 and 0x01 are the spec's default D1 (log entry 3). -/
def Obligations.IllegalOpcodesRaiseDecodeError : Prop :=
  (∀ (s : State), s.run = .running → s.pc ≤ 253 →
    s.mem.read s.pc ∉ [0x82#8, 0x47#8, 0x01#8, 0xA2#8, 0xA0#8, 0x45#8, 0x46#8, 0x50#8, 0x11#8, 0xA7#8, 0x55#8,
      0x56#8, 0x54#8] →
    (s.aluExt = true → s.mem.read s.pc ∉ [0xA1#8, 0xA3#8]) →
    step s = .next { s with
      run := .faulted ⟨.decodeError (s.mem.read s.pc) s.pc, s.pc, some (s.mem.read s.pc)⟩ }) ∧
  ((List.range 256).filter fun n => (lookupOpcode false (BitVec.ofNat 8 n)).isNone).length = 243 ∧
  ((List.range 256).filter fun n => (lookupOpcode true (BitVec.ofNat 8 n)).isNone).length = 241 ∧
  ∀ e, (lookupOpcode e 0x00#8).isNone = true

/-! ## The step -/

/-- A step of a Running core whose three bytes at pc decode to i is exec of i at that state: nothing stands around exec
(R84, R85, R88). -/
def Obligations.StepRunsDecodedInstruction : Prop :=
  ∀ (s : State) (i : Instr), s.run = .running → s.pc ≤ 253 →
    decode s.aluExt (s.mem.read s.pc) (s.mem.read (s.pc + 1)) (s.mem.read (s.pc + 2)) = .instr i →
    step s = exec i s

/-- R82: three reads in order whatever the width; a read that leaves memory faults before decode, so nothing executes
at 254, 255 or 256: the spec's own decision D5 (log entry 12). The record's ir, the byte at pc or none, is R203's. -/
def Obligations.FetchReadsThreeBytes : Prop :=
  ∀ s : State,
    (s.pc ≤ 253 → fetch s = .ok ⟨s.mem.read s.pc, s.mem.read (s.pc + 1), s.mem.read (s.pc + 2)⟩) ∧
    (s.run = .running →
      (s.pc = 254 → step s =
        .next { s with run := .faulted ⟨.outOfRange (.memory 256), 254, some (s.mem.read 254)⟩ }) ∧
      (s.pc = 255 → step s =
        .next { s with run := .faulted ⟨.outOfRange (.memory 256), 255, some (s.mem.read 255)⟩ }) ∧
      (256 ≤ s.pc → step s = .next { s with run := .faulted ⟨.outOfRange (.memory s.pc), s.pc, none⟩ }))

/-- R81: a step exists only when the core is Running. -/
def Obligations.NoStepUnlessRunning : Prop :=
  ∀ s : State, s.run ≠ .running → ∀ t, step s ≠ .next t

/-- Every instruction completes from every state, and so does every step of a Running core: nothing is refused and
nothing is stuck (R84, R88, R89). -/
def Obligations.EveryRunningStepCompletes : Prop :=
  (∀ (i : Instr) (s : State), ∃ t, exec i s = .next t) ∧
  ∀ s : State, s.run = .running → ∃ t, step s = .next t

/-- R86, R203: whatever faults a step, the state after it is the state before it but for `run`, and the record holds
the address and the opcode byte of the faulting instruction, no byte when the fetch of pc itself faulted. That faults are precise is
the spec's own decision D10 (log entry 12). -/
def Obligations.FaultsArePrecise : Prop :=
  ∀ (s t : State) (rec : FaultRecord), step s = .next t → t.run = .faulted rec →
    t = { s with run := .faulted rec } ∧ rec.pc = s.pc ∧
    rec.ir = (if s.pc ≤ 255 then some (s.mem.read s.pc) else none)

/-- R85: the new pc of every instruction that completes. CALL's target index is read after its push. -/
def Obligations.EachInstructionWritesPcOnce : Prop :=
  ∀ (i : Instr) (s t : State), exec i s = .next t → (∀ rec, t.run ≠ .faulted rec) →
    match i with
    | .ldi _ _ | .add _ _ | .sub _ _ | .mul _ _ | .div _ _ | .cmp _ _ => t.pc = s.pc + 3
    | .prn _ | .push _ | .pop _ => t.pc = s.pc + 2
    | .hlt => t.pc = s.pc + 1
    | .call _ => ∃ h : (t.mem.read (s.pc + 1)).toNat < 8, t.pc = t.regs[(t.mem.read (s.pc + 1)).toNat].toNat
    | .ret => t.pc = (s.mem.read s.regs[7].toNat).toNat
    | .jmp a => ∃ h : a.toNat < 8, t.pc = s.regs[a.toNat].toNat
    | .jeq a => (s.fl.e = true ∧ ∃ h : a.toNat < 8, t.pc = s.regs[a.toNat].toNat) ∨
        (s.fl.e = false ∧ t.pc = s.pc + 2)
    | .jne a => (s.fl.e = false ∧ ∃ h : a.toNat < 8, t.pc = s.regs[a.toNat].toNat) ∨
        (s.fl.e = true ∧ t.pc = s.pc + 2)

/-- A word placed where the next fetch reads it is the instruction the next step runs, in every state a program can
start from (log entries 2 and 8). -/
def Obligations.PlacedWordRunsNext : Prop :=
  ∀ (s : State) (nbits w : Nat) (i : Instr), s.run = .running → s.pc ≤ 253 → s.mem.wf →
    decodeTableWord nbits w = some i →
    step (s.withFetchWord nbits w) = exec i (s.withFetchWord nbits w)

/-! ## Invariants and whole-machine rules -/

/-- Every step keeps the invariant: pc in 0..256 (R27), canonical memory (R40), exclusive flags (R25), precise fault
record (R203). -/
def Obligations.StepKeepsMachineInvariant : Prop :=
  ∀ s t : State, s.Inv → step s = .next t → t.Inv

/-- The invariant holds at reset, for every draw and in both configurations (R33). -/
def Obligations.ResetMeetsMachineInvariant : Prop :=
  State.reset.Inv ∧ ∀ (e : Bool) (r : Vector Byte 7), (State.construct e r).Inv

/-- R33: what construction leaves, for every draw of R0..R6. -/
def Obligations.ConstructionGivesResetValues : Prop :=
  ∀ (e : Bool) (r : Vector Byte 7),
    (∀ x, (State.construct e r).mem.read x = 0#8) ∧
    (State.construct e r).regs[7] = 0xF4#8 ∧
    (∀ (k : Nat) (h : k < 7), (State.construct e r).regs[k] = r[k]) ∧
    (State.construct e r).fl = ⟨false, false, false⟩ ∧
    (State.construct e r).pc = 0 ∧
    (State.construct e r).run = .running ∧
    (State.construct e r).out = []

/-- The launch state (R231): byte k of an image of at most 256 bytes is mem[k], every other cell keeps 0, nothing else
changes and the invariant holds; a longer image is a LoadError (D22). -/
def Obligations.LoadPlacesImage : Prop :=
  ∀ (e : Bool) (r : Vector Byte 7) (image : List Byte),
    (image.length ≤ 256 → ∃ s, loadImage image (State.construct e r) = .ok s ∧
      (∀ (k : Nat) (h : k < image.length), s.mem.read k = image[k]) ∧
      (∀ k, image.length ≤ k → s.mem.read k = 0#8) ∧
      s = { State.construct e r with mem := s.mem } ∧ s.Inv) ∧
    (256 < image.length → loadImage image (State.construct e r) = .error .oversized)

/-- Only CMP writes a flag, and when it writes them exactly one is set (R25, R121). -/
def Obligations.OnlyCmpWritesFlags : Prop :=
  ∀ (i : Instr) (s t : State), exec i s = .next t →
    t.fl = s.fl ∨ ∃ a b, i = .cmp a b ∧ t.fl.exactlyOne = true

/-- R29: the output is empty at reset; PRN appends the byte of its register; nothing else changes it. -/
def Obligations.OnlyPrnAppendsOutput : Prop :=
  (∀ (e : Bool) (r : Vector Byte 7), (State.construct e r).out = []) ∧
  (∀ (s : State) (a : Byte) (h : a.toNat < 8), ∃ t, exec (.prn a) s = .next t ∧ t.out = s.out ++ [s.regs[a.toNat]]) ∧
  ∀ (i : Instr) (s t : State), exec i s = .next t →
    t.out = s.out ∨ ∃ (a : Byte) (h : a.toNat < 8), i = .prn a ∧ t.out = s.out ++ [s.regs[a.toNat]]

/-- Only PUSH and CALL write memory, and only the byte below SP (R44, R151). -/
def Obligations.OnlyPushAndCallWriteMemory : Prop :=
  ∀ (i : Instr) (s t : State), exec i s = .next t →
    t.mem = s.mem ∨
    ((∃ a, i = .push a ∨ i = .call a) ∧ s.regs[7] ≠ 0#8 ∧
      ∀ x, x ≠ s.regs[7].toNat - 1 → t.mem.read x = s.mem.read x)

/-- R87: only HLT moves the core to Halted, past its own byte, and then there is no step. -/
def Obligations.OnlyHltHalts : Prop :=
  (∀ s : State, s.run = .running → s.pc ≤ 253 → s.mem.read s.pc = 0x01#8 →
    step s = .next { s with pc := s.pc + 1, run := .halted }) ∧
  ∀ s t : State, step s = .next t → t.run = .halted →
    s.mem.read s.pc = 0x01#8 ∧ t = { s with pc := s.pc + 1, run := .halted } ∧ ∀ u, step t ≠ .next u

/-- A run that has ended stays as it is, whatever fuel is left (R28, R81, R104). -/
def Obligations.EndedRunStaysEnded : Prop :=
  ∀ (n m : Nat) (s : State), (runFor n s).run.terminal = true → runFor (n + m) s = runFor n s

/-- A jump to its own address runs for ever (R89, R173): no fuel ends it. The byte 0x54 is the spec's default D1
(log entry 3). -/
def Obligations.SelfJumpNeverEnds : Prop :=
  ∀ (s : State) (a : Byte) (h : a.toNat < 8), s.run = .running → s.pc ≤ 253 → s.mem.read s.pc = 0x54#8 →
    s.mem.read (s.pc + 1) = a → s.regs[a.toNat].toNat = s.pc → ∀ n, runFor n s = s

/-- L and G are written but never read (R25): two states that differ only in them step alike. -/
def Obligations.FlagsLAndGAreUnread : Prop :=
  ∀ (s t : State) (f : Flags), f.e = s.fl.e → step s = .next t →
    ∃ f' : Flags, f'.e = t.fl.e ∧ step { s with fl := f } = .next { t with fl := f' }

/-- `ALU_EXT` decides the bytes 0xA1 and 0xA3 alone, and no step changes it (R10, R30, R67; log entry 2). Those two
bytes are the spec's default D1 (log entry 3). -/
def Obligations.AluExtDecidesTwoBytesOnly : Prop :=
  (∀ s t : State, step s = .next t → t.aluExt = s.aluExt) ∧
  ∀ (s t : State) (e : Bool), s.mem.read s.pc ≠ 0xA1#8 → s.mem.read s.pc ≠ 0xA3#8 → step s = .next t →
    step { s with aluExt := e } = .next { t with aluExt := e }

/-! ## Laws of the families -/

/-- The round trip of PUSH and POP (R155), R7 included, and where the pair faults outside 1..0xF4. Memory is canonical,
as every step keeps it. The bytes 0x45 and 0x46 that the fault records name are the spec's default D1 (log entry 3). -/
def Obligations.PushPopRoundTrip : Prop :=
  ∀ (s : State) (a : Byte) (h : a.toNat < 8), s.mem.wf →
    (1 ≤ s.regs[7].toNat → s.regs[7].toNat ≤ 0xF4 → ∃ t u, exec (.push a) s = .next t ∧ exec (.pop a) t = .next u ∧
      u.regs = s.regs ∧ u.fl = s.fl ∧ u.run = s.run ∧ u.out = s.out ∧ u.pc = s.pc + 4 ∧
      u.mem.read (s.regs[7].toNat - 1) = (s.regs.set 7 (s.regs[7] - 1#8))[a.toNat] ∧
      ∀ x, x ≠ s.regs[7].toNat - 1 → u.mem.read x = s.mem.read x) ∧
    (s.regs[7] = 0#8 → exec (.push a) s =
      .next { s with run := .faulted ⟨.stackOverflow 0#8, s.pc, some 0x45#8⟩ }) ∧
    (0xF4 < s.regs[7].toNat → ∃ t, exec (.push a) s = .next t ∧ exec (.pop a) t =
      .next { t with run := .faulted ⟨.stackUnderflow (s.regs[7] - 1#8), t.pc, some 0x46#8⟩ })

/-- Call and return exactness (R177): after an admitted CALL the return address is below the old SP; a RET that finds
SP and that byte as the CALL left them goes to the instruction after the CALL and restores SP. The bound SP ≤ 0xF4 is
R152's, without which the RET underflows. -/
def Obligations.CallThenRetReturns : Prop :=
  ∀ (s t : State) (x : Byte), s.pc ≤ 253 → s.regs[7].toNat ≤ 0xF4 → exec (.call x) s = .next t →
    (∀ rec, t.run ≠ .faulted rec) →
    t.regs[7] = s.regs[7] - 1#8 ∧ t.mem.read (s.regs[7].toNat - 1) = BitVec.ofNat 8 (s.pc + 2) ∧
    ∀ u : State, u.regs[7] = t.regs[7] → u.mem.read (s.regs[7].toNat - 1) = BitVec.ofNat 8 (s.pc + 2) →
      exec .ret u = .next { u with regs := u.regs.set 7 s.regs[7], pc := s.pc + 2 }

/-- Branch consistency (R176): at any flag state exactly one of JEQ Ra and JNE Ra is taken. -/
def Obligations.ExactlyOneOfJeqJneIsTaken : Prop :=
  ∀ (s : State) (a : Byte) (h : a.toNat < 8),
    (exec (.jeq a) s = .next { s with pc := s.regs[a.toNat].toNat } ∧
      exec (.jne a) s = .next { s with pc := s.pc + 2 } ∧ s.fl.e = true) ∨
    (exec (.jne a) s = .next { s with pc := s.regs[a.toNat].toNat } ∧
      exec (.jeq a) s = .next { s with pc := s.pc + 2 } ∧ s.fl.e = false)

/-- The arithmetic laws of R127. -/
def Obligations.AluLaws : Prop :=
  ∀ u v : Byte,
    (aluAdd u v).toNat = (u.toNat + v.toNat) % 256 ∧ aluAdd u 0#8 = u ∧
    (aluSub u v).toNat = (u.toNat + 256 - v.toNat) % 256 ∧ aluSub u 0#8 = u ∧
    (v ≠ 0#8 → (aluSub 0#8 v).toNat = 256 - v.toNat) ∧
    (aluMul u v).toNat = (u.toNat * v.toNat) % 256 ∧ aluMul u 0#8 = 0#8 ∧
    (v ≠ 0#8 → ∃ q, aluDiv u v = .ok q ∧ q.toNat = u.toNat / v.toNat) ∧
    aluDiv u 0#8 = .error (.arithmeticError .divisionByZero) ∧
    (v ≠ 0#8 → aluDiv 0#8 v = .ok 0#8) ∧
    compareFlags u v = ⟨decide (u.toNat = v.toNat), decide (u.toNat < v.toNat), decide (u.toNat > v.toNat)⟩

/-! ## Memory and observation -/

/-- MemRead and MemWrite (R42, R43, R47, R49), in canonical memory: outside 0..255 they raise OutOfRange; a read after a
write sees it, every other byte and every other piece of state stays. -/
def Obligations.MemoryReadsAndWrites : Prop :=
  ∀ (s : State) (x : Nat) (v : Byte), s.mem.wf →
    (255 < x → memRead s x = .error (.outOfRange (.memory x)) ∧
      memWrite s x v = .error (.outOfRange (.memory x))) ∧
    (x ≤ 255 → memRead s x = .ok (s.mem.read x) ∧
      ∃ t, memWrite s x v = .ok t ∧ memRead t x = .ok v ∧ (∀ y, y ≠ x → memRead t y = memRead s y) ∧
        t = { s with mem := t.mem })

/-- A byte that one instruction wrote is what the next fetch of its address reads (R51, R237): PUSH, then a fetch at the
address it stored to. -/
def Obligations.FetchSeesPushedByte : Prop :=
  ∀ (s t u : State) (a : Byte) (h : a.toNat < 8), s.mem.wf → s.regs[7] ≠ 0#8 → s.regs[7].toNat ≤ 254 →
    exec (.push a) s = .next t → u = { t with pc := s.regs[7].toNat - 1 } →
    ∃ f, fetch u = .ok f ∧ f.ir = (s.regs.set 7 (s.regs[7] - 1#8))[a.toNat]

/-- The exit statuses of R213, with those of a failed load (R202). The statuses 3 to 6, and 2 for every failed load but a
missing file, are the spec's own decision D11 (log entry 12). -/
def Obligations.ExitStatuses : Prop :=
  exitStatus .halted = some 0 ∧
  (∀ ir p pc o, exitStatus (.faulted ⟨.decodeError ir p, pc, o⟩) = some 1) ∧
  (∀ e, loadErrorStatus e = 2) ∧
  (∀ k pc o, exitStatus (.faulted ⟨.arithmeticError k, pc, o⟩) = some 3) ∧
  (∀ sp pc o, exitStatus (.faulted ⟨.stackOverflow sp, pc, o⟩) = some 4) ∧
  (∀ sp pc o, exitStatus (.faulted ⟨.stackUnderflow sp, pc, o⟩) = some 5) ∧
  (∀ k pc o, exitStatus (.faulted ⟨.outOfRange k, pc, o⟩) = some 6)

/-- The trace tuple (R8, R212): pc, the bytes the fetch will read, absent above 255 (D21), and the eight registers. -/
def Obligations.TraceSamplesTheFetch : Prop :=
  ∀ s : State,
    (traceOf s).pc = s.pc ∧ (traceOf s).regs = s.regs ∧
    (∀ f, fetch s = .ok f → traceOf s = ⟨s.pc, some f.ir, some f.a, some f.b, s.regs⟩) ∧
    (s.pc = 254 → (traceOf s).a = some (s.mem.read 255) ∧ (traceOf s).b = none) ∧
    (s.pc = 255 → (traceOf s).ir = some (s.mem.read 255) ∧ (traceOf s).a = none ∧ (traceOf s).b = none)
end

