-- ==== Sys2Proof/Laws/Memory.lean ====
section
/-! SUPPORT. The laws of memory: a read after a write, and that every operation keeps the canonical form. -/

namespace Sys2Proof.Machine

/-- Empty memory reads 0 everywhere (R33, R40). -/
@[simp] theorem Memory.read_nil (a : Nat) : Memory.read [] a = 0#8 := rfl

/-- An address below every listed one is unlisted, so it reads as 0. -/
theorem Memory.read_of_lt {m : Memory} {a : Nat} (h : ∀ c ∈ m, a < c.1) : m.read a = 0#8 := by
  induction m with
  | nil => rfl
  | cons c m ih =>
    have hc : a < c.1 := h c (by simp)
    have hne : c.1 ≠ a := by omega
    simp only [Memory.read, hne, if_false]
    exact ih fun d hd => h d (by simp [hd])

/-- A write leaves every other address as it was. -/
theorem Memory.read_write_other (m : Memory) (v : Byte) {a b : Nat} (h : b ≠ a) :
    (m.write a v).read b = m.read b := by
  have h' : a ≠ b := h.symm
  induction m with
  | nil => by_cases hv : v = 0#8 <;> simp [Memory.write, Memory.read, hv, h']
  | cons c m ih =>
    obtain ⟨k, w⟩ := c
    by_cases h₁ : a < k
    · by_cases hv : v = 0#8 <;> simp [Memory.write, Memory.read, h₁, hv, h']
    · by_cases h₂ : a = k
      · subst h₂
        by_cases hv : v = 0#8 <;> simp [Memory.write, Memory.read, hv, h']
      · simp [Memory.write, Memory.read, h₁, h₂, ih]

/-- A read of the address written gives a nonzero byte written, whatever the list. -/
theorem Memory.read_write_nonzero (m : Memory) {v : Byte} (a : Nat) (hv : v ≠ 0#8) : (m.write a v).read a = v := by
  induction m with
  | nil => simp [Memory.write, Memory.read, hv]
  | cons c m ih =>
    obtain ⟨k, w⟩ := c
    by_cases h₁ : a < k
    · simp [Memory.write, Memory.read, h₁, hv]
    · by_cases h₂ : a = k
      · simp [Memory.write, Memory.read, h₂, hv]
      · have h₃ : k ≠ a := fun e => h₂ e.symm
        simp [Memory.write, Memory.read, h₁, h₂, h₃, ih]

/-- A read of the address written gives the byte written (R49), in canonical memory. -/
theorem Memory.read_write_same {m : Memory} (hm : m.wf) (a : Nat) (v : Byte) : (m.write a v).read a = v := by
  by_cases hv : v = 0#8
  · subst hv
    obtain ⟨hs, -⟩ := hm
    induction m with
    | nil => rfl
    | cons c m ih =>
      obtain ⟨k, w⟩ := c
      obtain ⟨hk, hs⟩ := List.pairwise_cons.mp hs
      by_cases h₁ : a < k
      · have h₃ : k ≠ a := by omega
        simp only [Memory.write, h₁, if_true, Memory.read, h₃, if_false]
        exact Memory.read_of_lt fun d hd => by have := hk d hd; simp at this; omega
      · by_cases h₂ : a = k
        · subst h₂
          simp only [Memory.write, h₁, if_false, if_true]
          exact Memory.read_of_lt hk
        · have h₃ : k ≠ a := fun e => h₂ e.symm
          simpa [Memory.write, Memory.read, h₁, h₂, h₃] using ih hs
  · exact Memory.read_write_nonzero m a hv

/-- Every cell of a written memory is a cell of the old one or the one written. -/
theorem Memory.mem_write {m : Memory} {a : Nat} {v : Byte} {c : Host.Cell} (h : c ∈ m.write a v) :
    c ∈ m ∨ (c = (a, v) ∧ v ≠ 0#8) := by
  induction m with
  | nil =>
    by_cases hv : v = 0#8
    · simp [Memory.write, hv] at h
    · simp [Memory.write, hv] at h; exact .inr ⟨h, hv⟩
  | cons d m ih =>
    obtain ⟨k, w⟩ := d
    simp only [Memory.write] at h
    split at h
    · split at h
      · exact .inl h
      · rcases List.mem_cons.mp h with h | h
        · exact .inr ⟨h, ‹_›⟩
        · exact .inl h
    · split at h
      · split at h
        · exact .inl (List.mem_cons_of_mem _ h)
        · rcases List.mem_cons.mp h with h | h
          · exact .inr ⟨h, ‹_›⟩
          · exact .inl (List.mem_cons_of_mem _ h)
      · rcases List.mem_cons.mp h with h | h
        · exact .inl (h ▸ List.mem_cons_self)
        · exact (ih h).imp_left (List.mem_cons_of_mem _)

/-- A write inside the address space keeps the canonical form. -/
theorem Memory.write_wf {m : Memory} (hm : m.wf) {a : Nat} (ha : a < Config.memSize) (v : Byte) :
    (m.write a v).wf := by
  refine ⟨?_, fun c hc => ?_⟩
  · obtain ⟨hs, -⟩ := hm
    induction m with
    | nil => by_cases hv : v = 0#8 <;> simp [Memory.write, hv]
    | cons d m ih =>
      obtain ⟨k, w⟩ := d
      obtain ⟨hk, hs'⟩ := List.pairwise_cons.mp hs
      simp only [Memory.write]
      split
      · split
        · exact hs
        · rename_i hak _
          refine List.pairwise_cons.mpr ⟨fun c hc => ?_, hs⟩
          rcases List.mem_cons.mp hc with rfl | hc
          · exact hak
          · exact Nat.lt_trans hak (hk c hc)
      · split
        · split
          · exact hs'
          · rename_i hak _
            subst hak
            exact List.pairwise_cons.mpr ⟨hk, hs'⟩
        · refine List.pairwise_cons.mpr ⟨fun c hc => ?_, ih hs'⟩
          rcases Memory.mem_write hc with hc | ⟨rfl, -⟩
          · exact hk c hc
          · show k < a
            omega
  · rcases Memory.mem_write hc with hc | ⟨rfl, hv⟩
    · exact hm.2 c hc
    · exact ⟨ha, hv⟩

/-- Reset memory is canonical. -/
theorem Memory.nil_wf : Memory.wf [] := ⟨.nil, fun _ h => by cases h⟩

/-- A poke keeps the canonical form at every address, an absent one included. -/
theorem Memory.poke_wf {m : Memory} (hm : m.wf) (a : Nat) (v : Byte) : (m.poke a v).wf := by
  unfold Memory.poke
  split
  · exact Memory.write_wf hm ‹_› v
  · exact hm

/-- What a read sees of a poke in canonical memory. -/
theorem Memory.read_poke {m : Memory} (hm : m.wf) (a b : Nat) (v : Byte) :
    (m.poke a v).read b = if b = a ∧ a < Config.memSize then v else m.read b := by
  unfold Memory.poke
  by_cases ha : a < Config.memSize
  · by_cases hb : b = a
    · subst hb; simp [ha, Memory.read_write_same hm]
    · simp [ha, hb, Memory.read_write_other m v hb]
  · simp [ha]

/-- The loader keeps the canonical form (R5). -/
theorem loadFrom_wf (image : List Byte) (base : Nat) {s : State} (hs : s.mem.wf) : (loadFrom image base s).mem.wf := by
  induction image generalizing base s with
  | nil => exact hs
  | cons b bs ih => exact ih (base + 1) (Memory.poke_wf hs base b)

/-- Reset memory is canonical for every draw and in both configurations. -/
theorem State.construct_mem_wf (e : Bool) (r : Vector Byte 7) : (State.construct e r).mem.wf := Memory.nil_wf

end Sys2Proof.Machine
end

