-- ==== Sys2Proof/Laws/State.lean ====
section
/-! SUPPORT. The small lemmas of State: one per field per update, each true by rfl, and how a register read sees each
update. No later proof unfolds a record update. -/

namespace Sys2Proof.Machine

@[simp] theorem State.setReg_regs (s : State) (i : Fin 8) (v : Byte) : (s.setReg i v).regs = s.regs.set i v := rfl
@[simp] theorem State.setReg_fl (s : State) (i : Fin 8) (v : Byte) : (s.setReg i v).fl = s.fl := rfl
@[simp] theorem State.setReg_pc (s : State) (i : Fin 8) (v : Byte) : (s.setReg i v).pc = s.pc := rfl
@[simp] theorem State.setReg_run (s : State) (i : Fin 8) (v : Byte) : (s.setReg i v).run = s.run := rfl
@[simp] theorem State.setReg_mem (s : State) (i : Fin 8) (v : Byte) : (s.setReg i v).mem = s.mem := rfl
@[simp] theorem State.setReg_out (s : State) (i : Fin 8) (v : Byte) : (s.setReg i v).out = s.out := rfl
@[simp] theorem State.setReg_aluExt (s : State) (i : Fin 8) (v : Byte) : (s.setReg i v).aluExt = s.aluExt := rfl

@[simp] theorem State.setFlags_regs (s : State) (f : Flags) : (s.setFlags f).regs = s.regs := rfl
@[simp] theorem State.setFlags_fl (s : State) (f : Flags) : (s.setFlags f).fl = f := rfl
@[simp] theorem State.setFlags_pc (s : State) (f : Flags) : (s.setFlags f).pc = s.pc := rfl
@[simp] theorem State.setFlags_run (s : State) (f : Flags) : (s.setFlags f).run = s.run := rfl
@[simp] theorem State.setFlags_mem (s : State) (f : Flags) : (s.setFlags f).mem = s.mem := rfl
@[simp] theorem State.setFlags_out (s : State) (f : Flags) : (s.setFlags f).out = s.out := rfl
@[simp] theorem State.setFlags_aluExt (s : State) (f : Flags) : (s.setFlags f).aluExt = s.aluExt := rfl

@[simp] theorem State.advance_regs (s : State) (n : Nat) : (s.advance n).regs = s.regs := rfl
@[simp] theorem State.advance_fl (s : State) (n : Nat) : (s.advance n).fl = s.fl := rfl
@[simp] theorem State.advance_pc (s : State) (n : Nat) : (s.advance n).pc = s.pc + n := rfl
@[simp] theorem State.advance_run (s : State) (n : Nat) : (s.advance n).run = s.run := rfl
@[simp] theorem State.advance_mem (s : State) (n : Nat) : (s.advance n).mem = s.mem := rfl
@[simp] theorem State.advance_out (s : State) (n : Nat) : (s.advance n).out = s.out := rfl
@[simp] theorem State.advance_aluExt (s : State) (n : Nat) : (s.advance n).aluExt = s.aluExt := rfl

@[simp] theorem State.jump_regs (s : State) (t : Byte) : (s.jump t).regs = s.regs := rfl
@[simp] theorem State.jump_fl (s : State) (t : Byte) : (s.jump t).fl = s.fl := rfl
@[simp] theorem State.jump_pc (s : State) (t : Byte) : (s.jump t).pc = t.toNat := rfl
@[simp] theorem State.jump_run (s : State) (t : Byte) : (s.jump t).run = s.run := rfl
@[simp] theorem State.jump_mem (s : State) (t : Byte) : (s.jump t).mem = s.mem := rfl
@[simp] theorem State.jump_out (s : State) (t : Byte) : (s.jump t).out = s.out := rfl
@[simp] theorem State.jump_aluExt (s : State) (t : Byte) : (s.jump t).aluExt = s.aluExt := rfl

@[simp] theorem State.emit_regs (s : State) (v : Byte) : (s.emit v).regs = s.regs := rfl
@[simp] theorem State.emit_fl (s : State) (v : Byte) : (s.emit v).fl = s.fl := rfl
@[simp] theorem State.emit_pc (s : State) (v : Byte) : (s.emit v).pc = s.pc := rfl
@[simp] theorem State.emit_run (s : State) (v : Byte) : (s.emit v).run = s.run := rfl
@[simp] theorem State.emit_mem (s : State) (v : Byte) : (s.emit v).mem = s.mem := rfl
@[simp] theorem State.emit_out (s : State) (v : Byte) : (s.emit v).out = s.out ++ [v] := rfl
@[simp] theorem State.emit_aluExt (s : State) (v : Byte) : (s.emit v).aluExt = s.aluExt := rfl

@[simp] theorem State.halt_regs (s : State) : (s.halt).regs = s.regs := rfl
@[simp] theorem State.halt_fl (s : State) : (s.halt).fl = s.fl := rfl
@[simp] theorem State.halt_pc (s : State) : (s.halt).pc = s.pc := rfl
@[simp] theorem State.halt_run (s : State) : (s.halt).run = .halted := rfl
@[simp] theorem State.halt_mem (s : State) : (s.halt).mem = s.mem := rfl
@[simp] theorem State.halt_out (s : State) : (s.halt).out = s.out := rfl
@[simp] theorem State.halt_aluExt (s : State) : (s.halt).aluExt = s.aluExt := rfl

@[simp] theorem takeFault_regs (s : State) (c : Cause) (ir : Option Byte) : (takeFault c ir s).regs = s.regs := rfl
@[simp] theorem takeFault_fl (s : State) (c : Cause) (ir : Option Byte) : (takeFault c ir s).fl = s.fl := rfl
@[simp] theorem takeFault_pc (s : State) (c : Cause) (ir : Option Byte) : (takeFault c ir s).pc = s.pc := rfl
@[simp] theorem takeFault_run (s : State) (c : Cause) (ir : Option Byte) : (takeFault c ir s).run = .faulted ⟨c, s.pc, ir⟩ := rfl
@[simp] theorem takeFault_mem (s : State) (c : Cause) (ir : Option Byte) : (takeFault c ir s).mem = s.mem := rfl
@[simp] theorem takeFault_out (s : State) (c : Cause) (ir : Option Byte) : (takeFault c ir s).out = s.out := rfl
@[simp] theorem takeFault_aluExt (s : State) (c : Cause) (ir : Option Byte) : (takeFault c ir s).aluExt = s.aluExt := rfl

@[simp] theorem popSpace_regs (s : State) : (popSpace s).regs = s.regs.set spIndex (s.sp + 1#8) := rfl
@[simp] theorem popSpace_fl (s : State) : (popSpace s).fl = s.fl := rfl
@[simp] theorem popSpace_pc (s : State) : (popSpace s).pc = s.pc := rfl
@[simp] theorem popSpace_run (s : State) : (popSpace s).run = s.run := rfl
@[simp] theorem popSpace_mem (s : State) : (popSpace s).mem = s.mem := rfl
@[simp] theorem popSpace_out (s : State) : (popSpace s).out = s.out := rfl
@[simp] theorem popSpace_aluExt (s : State) : (popSpace s).aluExt = s.aluExt := rfl

/-! ## Register reads -/

/-- A register read after a register write sees the value written, and every other register as it was (R20). -/
@[simp] theorem State.setReg_reg (s : State) (i j : Fin 8) (v : Byte) :
    (s.setReg i v).reg j = if j = i then v else s.reg j := by
  simp only [State.reg, State.setReg, Fin.getElem_fin, Vector.getElem_set, Fin.ext_iff, eq_comm]

@[simp] theorem State.setFlags_reg (s : State) (f : Flags) (j : Fin 8) : (s.setFlags f).reg j = s.reg j := rfl
@[simp] theorem State.advance_reg (s : State) (n : Nat) (j : Fin 8) : (s.advance n).reg j = s.reg j := rfl
@[simp] theorem State.jump_reg (s : State) (t : Byte) (j : Fin 8) : (s.jump t).reg j = s.reg j := rfl
@[simp] theorem State.emit_reg (s : State) (v : Byte) (j : Fin 8) : (s.emit v).reg j = s.reg j := rfl
@[simp] theorem State.halt_reg (s : State) (j : Fin 8) : s.halt.reg j = s.reg j := rfl
@[simp] theorem takeFault_reg (s : State) (c : Cause) (ir : Option Byte) (j : Fin 8) :
    (takeFault c ir s).reg j = s.reg j := rfl

/-- SP is register 7 (R23). -/
theorem State.sp_eq (s : State) : s.sp = s.regs[7] := rfl

/-- SP after a pop has moved it. -/
@[simp] theorem popSpace_sp (s : State) : (popSpace s).sp = s.sp + 1#8 := by
  simp [popSpace, State.sp]

/-- A pop's move of SP leaves every other register alone. -/
theorem popSpace_reg_other (s : State) (j : Fin 8) (h : j ≠ spIndex) : (popSpace s).reg j = s.reg j := by
  simp [popSpace, h]

/-! ## Reset -/

/-- Construction gives SP its reset value for every draw and in both configurations (R33). -/
@[simp] theorem State.construct_sp (e : Bool) (r : Vector Byte 7) : (State.construct e r).sp = Config.spReset := by
  simp [State.construct, State.sp_eq]

/-- Construction holds the draw in R0..R6 (R33, D3). -/
theorem State.construct_reg (e : Bool) (r : Vector Byte 7) (i : Nat) (h : i < 7) :
    (State.construct e r).regs[i] = r[i] := by
  simp [State.construct, h]

end Sys2Proof.Machine
end

