-- ==== Sys2Proof/Laws/Ops.lean ====
section
/-! SUPPORT. One lemma per shared operation that says everything it can do; proofs cite it and do not unfold the
operation. -/

namespace Sys2Proof.Machine

/-- A byte is an address of memory (R23, R40). -/
theorem byte_is_address (v : Byte) : v.toNat < Config.memSize := v.isLt

/-- MemRead inside memory (R42). -/
theorem memRead_inside (s : State) {a : Nat} (h : a < Config.memSize) : memRead s a = .ok (s.mem.read a) := by
  simp [memRead, h]

/-- MemRead outside memory (R42). -/
theorem memRead_outside (s : State) {a : Nat} (h : ¬ a < Config.memSize) :
    memRead s a = .error (.outOfRange (.memory a)) := by
  simp [memRead, h]

/-- MemRead of a byte address never faults (R42). -/
@[simp] theorem memRead_byte (s : State) (v : Byte) : memRead s v.toNat = .ok (s.mem.read v.toNat) :=
  memRead_inside s (byte_is_address v)

/-- MemWrite inside memory (R43). -/
theorem memWrite_inside (s : State) {a : Nat} (v : Byte) (h : a < Config.memSize) :
    memWrite s a v = .ok { s with mem := s.mem.write a v } := by
  simp [memWrite, h]

/-- MemWrite at a byte address never faults (R43). -/
@[simp] theorem memWrite_byte (s : State) (a v : Byte) :
    memWrite s a.toNat v = .ok { s with mem := s.mem.write a.toNat v } :=
  memWrite_inside s v (byte_is_address a)

/-- checkreg on an index that is a register (R12). -/
theorem checkReg_inside {idx : Byte} (h : idx.toNat < 8) : checkReg idx = .ok ⟨idx.toNat, h⟩ := by
  simp [checkReg, h]

/-- checkreg on an index that is none (R12, D4). -/
theorem checkReg_outside {idx : Byte} (h : ¬ idx.toNat < 8) : checkReg idx = .error (.outOfRange (.register idx)) := by
  simp [checkReg, h]

/-- Everything checkreg can do. -/
theorem checkReg_cases (idx : Byte) :
    (∃ h : idx.toNat < 8, checkReg idx = .ok ⟨idx.toNat, h⟩) ∨
    (8 ≤ idx.toNat ∧ checkReg idx = .error (.outOfRange (.register idx))) := by
  by_cases h : idx.toNat < 8
  · exact .inl ⟨h, checkReg_inside h⟩
  · exact .inr ⟨by omega, checkReg_outside h⟩

/-- Everything the check of an ALU operand pair can do, a first (R120). -/
theorem checkPair_cases (a b : Byte) :
    (∃ (ha : a.toNat < 8) (hb : b.toNat < 8), checkPair a b = .ok (⟨a.toNat, ha⟩, ⟨b.toNat, hb⟩)) ∨
    (8 ≤ a.toNat ∧ checkPair a b = .error (.outOfRange (.register a))) ∨
    (a.toNat < 8 ∧ 8 ≤ b.toNat ∧ checkPair a b = .error (.outOfRange (.register b))) := by
  rcases checkReg_cases a with ⟨ha, ea⟩ | ⟨ha, ea⟩
  · rcases checkReg_cases b with ⟨hb, eb⟩ | ⟨hb, eb⟩
    · exact .inl ⟨ha, hb, by simp [checkPair, ea, eb, bind, Except.bind, pure, Except.pure]⟩
    · exact .inr (.inr ⟨ha, hb, by simp [checkPair, ea, eb, bind, Except.bind]⟩)
  · exact .inr (.inl ⟨ha, by simp [checkPair, ea, bind, Except.bind]⟩)

/-- Everything a jump through a register can do (R170). -/
theorem jumpThrough_cases (t : Byte) (s : State) :
    (∃ h : t.toNat < 8, jumpThrough t s = .ok (s.jump (s.reg ⟨t.toNat, h⟩))) ∨
    (8 ≤ t.toNat ∧ jumpThrough t s = .error (.outOfRange (.register t))) := by
  rcases checkReg_cases t with ⟨h, e⟩ | ⟨h, e⟩
  · exact .inl ⟨h, by simp [jumpThrough, e, bind, Except.bind, pure, Except.pure]⟩
  · exact .inr ⟨h, by simp [jumpThrough, e, bind, Except.bind]⟩

/-- Everything the bound of a push can do (R151). -/
theorem pushSpace_cases (s : State) :
    (s.sp = 0#8 ∧ pushSpace s = .error (.stackOverflow 0#8)) ∨
    (s.sp ≠ 0#8 ∧ pushSpace s = .ok (s.setReg spIndex (s.sp - 1#8))) := by
  by_cases h : s.sp = 0#8
  · exact .inl ⟨h, by simp [pushSpace, h]⟩
  · exact .inr ⟨h, by simp [pushSpace, h]⟩

/-- SP after an admitted push. -/
theorem pushSpace_sp {s t : State} (h : pushSpace s = .ok t) : t.sp = s.sp - 1#8 := by
  rcases pushSpace_cases s with ⟨-, e⟩ | ⟨-, e⟩
  · simp [e] at h
  · cases e.symm.trans h; simp [State.sp]

/-- Everything the bound and the read of a pop can do (R152). -/
theorem popByte_cases (s : State) :
    (0xF4 ≤ s.sp.toNat ∧ popByte s = .error (.stackUnderflow s.sp)) ∨
    (s.sp.toNat < 0xF4 ∧ popByte s = .ok (s.mem.read s.sp.toNat)) := by
  by_cases h : 0xF4 ≤ s.sp.toNat
  · exact .inl ⟨h, by simp [popByte, Config.stackEmpty, h]⟩
  · exact .inr ⟨by omega, by simp [popByte, Config.stackEmpty, h]⟩

/-- A step that raised nothing (R88). -/
@[simp] theorem complete_ok (ir : Byte) (s t : State) : complete ir s (.ok t) = .next t := rfl

/-- A step that raised a fault: every write is discarded (R86). -/
@[simp] theorem complete_error (ir : Byte) (s : State) (c : Cause) :
    complete ir s (.error c) = .next (takeFault c (some ir) s) := rfl

/-- Everything the end of an instruction can do: its writes, or the one change of a fault (R86, R88). -/
theorem complete_cases {ir : Byte} {s t : State} {r : Except Cause State} (h : complete ir s r = .next t) :
    r = .ok t ∨ ∃ c, r = .error c ∧ t = takeFault c (some ir) s := by
  cases r with
  | ok u => cases h; exact .inl rfl
  | error c => cases h; exact .inr ⟨c, rfl, rfl⟩

/-- Everything an ALU operation in place can do (R120). -/
theorem aluInPlace_cases (f : Byte → Byte → Except Cause Byte) (a b : Byte) (s : State) :
    (∃ (ha : a.toNat < 8) (hb : b.toNat < 8), aluInPlace f a b s =
      (f (s.reg ⟨a.toNat, ha⟩) (s.reg ⟨b.toNat, hb⟩)).map fun r => (s.setReg ⟨a.toNat, ha⟩ r).advance 3) ∨
    (8 ≤ a.toNat ∧ aluInPlace f a b s = .error (.outOfRange (.register a))) ∨
    (a.toNat < 8 ∧ 8 ≤ b.toNat ∧ aluInPlace f a b s = .error (.outOfRange (.register b))) := by
  rcases checkPair_cases a b with ⟨ha, hb, e⟩ | ⟨ha, e⟩ | ⟨ha, hb, e⟩
  · refine .inl ⟨ha, hb, ?_⟩
    cases h : f (s.reg ⟨a.toNat, ha⟩) (s.reg ⟨b.toNat, hb⟩) <;>
      simp [aluInPlace, e, h, bind, Except.bind, pure, Except.pure, Except.map]
  · exact .inr (.inl ⟨ha, by simp [aluInPlace, e, bind, Except.bind]⟩)
  · exact .inr (.inr ⟨ha, hb, by simp [aluInPlace, e, bind, Except.bind]⟩)

/-- MemWrite keeps memory canonical. -/
theorem memWrite_wf {s t : State} {a : Nat} {v : Byte} (hs : s.mem.wf) (h : memWrite s a v = .ok t) : t.mem.wf := by
  by_cases ha : a < Config.memSize
  · rw [memWrite_inside s v ha] at h
    cases h
    exact Memory.write_wf hs ha v
  · simp [memWrite, ha] at h

end Sys2Proof.Machine
end

