-- ==== Sys2Proof/Tests/Slice0.lean ====
section
/-! SUPPORT. Tests of the model against spec/95_test_vectors.md and the rules' examples, the well-formedness smoke test,
and for every statement with hypotheses a witness that meets them together. Expected results come from spec/, never from
the model. -/

namespace Sys2Proof.Tests

open Sys2Proof.Machine

/-- The reset state with these registers and pc, and these bytes from pc on. -/
def st (regs : Vector Byte 8) (pc : Nat) (bytes : List Byte) : State :=
  loadFrom bytes pc { State.reset with regs := regs, pc := pc }

/-- Eight registers: R0 to R3 as given, R4 to R6 zero, and SP. -/
def rg (r0 r1 r2 r3 sp : Byte) : Vector Byte 8 := #v[r0, r1, r2, r3, 0#8, 0#8, 0#8, sp]

/-- The fault record a step leaves, if it leaves one. -/
def stepFault (s : State) : Option FaultRecord := (nextOf (step s)).bind fun t => t.run.record?

/-- What a step leaves of a state. -/
def after {α : Type} (s : State) (f : State → α) : Option α := (nextOf (step s)).map f

/-! ## Well-formedness (the one check: the configuration has the instruction) -/

theorem test_wf_refuses_sub_without_aluExt : Instr.wellFormed false (.sub 0#8 1#8) = false := by decide
theorem test_wf_refuses_div_without_aluExt : Instr.wellFormed false (.div 0#8 1#8) = false := by decide
theorem test_wf_admits_div_with_aluExt : Instr.wellFormed true (.div 0#8 1#8) = true := by decide
theorem test_wf_admits_index_past_registers : Instr.wellFormed false (.jeq 8#8) = true := by decide

/-! ## Decoding: words written out bit by bit from R66 and the encodings of the instruction rules -/

theorem test_decode_ldi : decode false 0b10000010#8 0b00000011#8 0b00000101#8 = .instr (.ldi 3#8 5#8) := by decide
theorem test_decode_prn : decode false 0b01000111#8 0b00000011#8 0b00000101#8 = .instr (.prn 3#8) := by decide
theorem test_decode_hlt : decode false 0b00000001#8 0b00000011#8 0b00000101#8 = .instr .hlt := by decide
theorem test_decode_mul : decode false 0b10100010#8 0b00000011#8 0b00000101#8 = .instr (.mul 3#8 5#8) := by decide
theorem test_decode_add : decode false 0b10100000#8 0b00000011#8 0b00000101#8 = .instr (.add 3#8 5#8) := by decide
theorem test_decode_push : decode false 0b01000101#8 0b00000011#8 0b00000101#8 = .instr (.push 3#8) := by decide
theorem test_decode_pop : decode false 0b01000110#8 0b00000011#8 0b00000101#8 = .instr (.pop 3#8) := by decide
theorem test_decode_call : decode false 0b01010000#8 0b00000011#8 0b00000101#8 = .instr (.call 3#8) := by decide
theorem test_decode_ret : decode false 0b00010001#8 0b00000011#8 0b00000101#8 = .instr .ret := by decide
theorem test_decode_cmp : decode false 0b10100111#8 0b00000011#8 0b00000101#8 = .instr (.cmp 3#8 5#8) := by decide
theorem test_decode_jeq : decode false 0b01010101#8 0b00000011#8 0b00000101#8 = .instr (.jeq 3#8) := by decide
theorem test_decode_jne : decode false 0b01010110#8 0b00000011#8 0b00000101#8 = .instr (.jne 3#8) := by decide
theorem test_decode_jmp : decode false 0b01010100#8 0b00000011#8 0b00000101#8 = .instr (.jmp 3#8) := by decide
theorem test_decode_sub : decode true 0b10100001#8 0b00000011#8 0b00000101#8 = .instr (.sub 3#8 5#8) := by decide
theorem test_decode_div : decode true 0b10100011#8 0b00000011#8 0b00000101#8 = .instr (.div 3#8 5#8) := by decide
/-- V-D3. -/
theorem test_decode_sub_without_aluExt : decode false 0xA1#8 0#8 1#8 = .illegalOpcode 0xA1#8 := by decide
/-- R67: 0x00 is illegal, and bits [7:6] = 0b11 are never an opcode (R69). -/
theorem test_decode_zero_and_ff : decode true 0x00#8 0#8 0#8 = .illegalOpcode 0x00#8 ∧
    decode true 0xFF#8 0#8 0#8 = .illegalOpcode 0xFF#8 := by decide
/-- No two rows of the table share an opcode byte (R66). -/
theorem test_table_unambiguous : opcodeTable.Pairwise (fun r r' => r.opcode ≠ r'.opcode) := by decide
theorem test_encode_ldi : encode (.ldi 0#8 8#8) = [0b10000010#8, 0#8, 0b00001000#8] := by decide

/-! ## One step: spec/95_test_vectors.md section 2 -/

/-- V-D1. -/
theorem test_reset_step_decode_error :
    stepFault State.reset = some ⟨.decodeError 0#8 0, 0, some 0#8⟩ := by decide
/-- V-D5, V-D7. -/
theorem test_lookahead_254 :
    stepFault (st (rg 0#8 0#8 0#8 0#8 0xF4#8) 254 [0xFF#8]) = some ⟨.outOfRange (.memory 256), 254, some 0xFF#8⟩ := by decide
/-- V-D8. -/
theorem test_pc_256_no_opcode :
    stepFault (st (rg 0#8 0#8 0#8 0#8 0xF4#8) 256 []) = some ⟨.outOfRange (.memory 256), 256, none⟩ := by decide
/-- V-D9. -/
theorem test_halted_no_step :
    nextOf (step { State.reset with run := .halted }) = none := by decide
/-- V-D8. -/
theorem test_ldi_at_253 :
    after (st (rg 0#8 0#8 0#8 0#8 0xF4#8) 253 [0x82#8, 0#8, 5#8]) (fun t => (t.reg 0, t.pc)) = some (5#8, 256) := by decide
/-- V-L3. -/
theorem test_ldi_r7 :
    after (st (rg 0#8 0#8 0#8 0#8 0xF4#8) 0 [0x82#8, 7#8, 0x10#8]) (fun t => (t.sp, t.pc)) = some (0x10#8, 3) := by decide
/-- V-P1. -/
theorem test_prn :
    after (st (rg 0#8 0#8 200#8 0#8 0xF4#8) 4 [0x47#8, 2#8]) (fun t => (t.out, t.pc)) = some ([200#8], 6) := by decide
/-- V-P2. -/
theorem test_prn_bad_index :
    after (st (rg 0#8 0#8 0#8 0#8 0xF4#8) 4 [0x47#8, 9#8]) (fun t => (t.out, t.run)) =
      some ([], .faulted ⟨.outOfRange (.register 9#8), 4, some 0x47#8⟩) := by decide
/-- V-D4. -/
theorem test_hlt_at_253 :
    after (st (rg 0#8 0#8 0#8 0#8 0xF4#8) 253 [1#8]) (fun t => (t.pc, t.run)) = some (254, .halted) := by decide
/-- V-M3. -/
theorem test_mul_high_byte_lost :
    after (st (rg 255#8 255#8 0#8 0#8 0xF4#8) 0 [0xA2#8, 0#8, 1#8]) (fun t => t.reg 0) = some 1#8 := by decide
/-- V-M5. -/
theorem test_mul_square :
    after (st (rg 0#8 20#8 0#8 0#8 0xF4#8) 0 [0xA2#8, 1#8, 1#8]) (fun t => t.reg 1) = some 144#8 := by decide
/-- V-A1. -/
theorem test_add_wraps :
    after (st (rg 200#8 100#8 0#8 0#8 0xF4#8) 0 [0xA0#8, 0#8, 1#8]) (fun t => (t.reg 0, t.reg 1, t.pc)) =
      some (44#8, 100#8, 3) := by decide
/-- V-A6. -/
theorem test_add_checks_a_first :
    stepFault (st (rg 0#8 0#8 0#8 0#8 0xF4#8) 0 [0xA0#8, 9#8, 8#8]) = some ⟨.outOfRange (.register 9#8), 0, some 0xA0#8⟩ := by decide
/-- V-U4. -/
theorem test_push_r7 :
    after (st (rg 0#8 0#8 0#8 0#8 0xF4#8) 0 [0x45#8, 7#8]) (fun t => (t.sp, t.mem.read 0xF3)) = some (0xF3#8, 0xF3#8) := by decide
/-- V-U3. -/
theorem test_push_sp_1 :
    after (st (rg 9#8 0#8 0#8 0#8 1#8) 0x40 [0x45#8, 0#8]) (fun t => (t.sp, t.mem.read 0)) = some (0#8, 9#8) := by decide
/-- V-O5. -/
theorem test_pop_r7_wraps :
    after (st (rg 0#8 0#8 0#8 0#8 0xF0#8) 0xEE [0x46#8, 7#8, 0xFF#8]) (fun t => t.sp) = some 0#8 := by decide
/-- V-O3. -/
theorem test_pop_underflow_above :
    stepFault (st (rg 0#8 0#8 0#8 0#8 0xFE#8) 0 [0x46#8, 1#8]) = some ⟨.stackUnderflow 0xFE#8, 0, some 0x46#8⟩ := by decide
/-- V-K5. -/
theorem test_call_over_own_index :
    after (st (#v[0#8, 0x20#8, 0#8, 0#8, 0#8, 0x30#8, 0#8, 5#8]) 3 [0x50#8, 1#8])
      (fun t => (t.sp, t.mem.read 4, t.pc)) = some (4#8, 5#8, 0x30) := by decide
/-- V-K3. -/
theorem test_call_fault_undoes_push :
    after (st (rg 0#8 0#8 0#8 0#8 0xF4#8) 6 [0x50#8, 9#8]) (fun t => (t.sp, t.mem.read 0xF3, t.pc, t.run)) =
      some (0xF4#8, 0#8, 6, .faulted ⟨.outOfRange (.register 9#8), 6, some 0x50#8⟩) := by decide
/-- V-T1 with its own byte below SP as the return address. -/
theorem test_ret :
    after (st (rg 0#8 0#8 0#8 0#8 0xF3#8) 0xF2 [0x11#8, 8#8]) (fun t => (t.pc, t.sp)) = some (8, 0xF4#8) := by decide
/-- V-T2. -/
theorem test_ret_underflow :
    stepFault (st (rg 0#8 0#8 0#8 0#8 0xF4#8) 0 [0x11#8]) = some ⟨.stackUnderflow 0xF4#8, 0, some 0x11#8⟩ := by decide
/-- V-C4. -/
theorem test_cmp_unsigned :
    after (st (rg 0x80#8 0x7F#8 0#8 0#8 0xF4#8) 0 [0xA7#8, 0#8, 1#8]) (fun t => t.fl) = some ⟨false, false, true⟩ := by decide
/-- V-C7. -/
theorem test_cmp_overwrites :
    after { st (rg 4#8 4#8 0#8 0#8 0xF4#8) 0 [0xA7#8, 0#8, 1#8] with fl := ⟨false, true, false⟩ } (fun t => t.fl) =
      some ⟨true, false, false⟩ := by decide
/-- V-Q1. -/
theorem test_jeq_taken :
    after { st (rg 0#8 0#8 0#8 12#8 0xF4#8) 20 [0x55#8, 3#8] with fl := ⟨true, false, false⟩ } (fun t => t.pc) = some 12 := by decide
/-- V-Q3. -/
theorem test_jeq_not_taken_no_check :
    after (st (rg 0#8 0#8 0#8 0#8 0xF4#8) 20 [0x55#8, 8#8]) (fun t => (t.pc, t.run)) = some (22, .running) := by decide
/-- V-N3. -/
theorem test_jne_taken_at_reset_flags :
    after (st (rg 0#8 0#8 0#8 12#8 0xF4#8) 20 [0x56#8, 3#8]) (fun t => t.pc) = some 12 := by decide
/-- V-N4. -/
theorem test_jne_not_taken_no_check :
    after { st (rg 0#8 0#8 0#8 0#8 0xF4#8) 20 [0x56#8, 9#8] with fl := ⟨true, false, false⟩ } (fun t => (t.pc, t.run)) = some (22, .running) := by decide
/-- V-J1. -/
theorem test_jmp :
    after (st (rg 0#8 0#8 0#8 12#8 0xF4#8) 0 [0x54#8, 3#8]) (fun t => t.pc) = some 12 := by decide
/-- V-J2. -/
theorem test_jmp_bad_index :
    stepFault (st (rg 0#8 0#8 0#8 0#8 0xF4#8) 0 [0x54#8, 8#8]) = some ⟨.outOfRange (.register 8#8), 0, some 0x54#8⟩ := by decide
/-- V-S1. -/
theorem test_sub_borrow :
    after { st (rg 3#8 5#8 0#8 0#8 0xF4#8) 0 [0xA1#8, 0#8, 1#8] with aluExt := true } (fun t => t.reg 0) = some 254#8 := by decide
/-- V-D3. -/
theorem test_sub_without_aluExt :
    stepFault (st (rg 0#8 0#8 0#8 0#8 0xF4#8) 0 [0xA1#8, 0#8, 1#8]) = some ⟨.decodeError 0xA1#8 0, 0, some 0xA1#8⟩ := by decide
/-- V-V1. -/
theorem test_div_floor :
    after { st (rg 7#8 2#8 0#8 0#8 0xF4#8) 0 [0xA3#8, 0#8, 1#8] with aluExt := true } (fun t => t.reg 0) = some 3#8 := by decide
/-- V-V7. -/
theorem test_div_index_before_zero :
    stepFault { st (rg 0#8 0#8 0#8 0#8 0xF4#8) 0 [0xA3#8, 0#8, 8#8] with aluExt := true } =
      some ⟨.outOfRange (.register 8#8), 0, some 0xA3#8⟩ := by decide

/-! ## The loader and the observation -/

/-- P1, its first line. -/
theorem test_parse_line_with_comment :
    parseLine ['1', '0', '0', '0', '0', '0', '1', '0', ' ', ' ', '#', ' ', 'L', 'D', 'I'] = .ok (some 0x82#8) := by decide
/-- R71: blank lines and comment-only lines are skipped. -/
theorem test_parse_blank_and_comment_only :
    parseLine ['#', 'x'] = .ok none ∧ parseLine [] = .ok none ∧
    parseLine [' ', '\t'] = .ok none ∧ parseLine [' ', '#', '1'] = .ok none := by decide
/-- N14: white space after a literal with no comment is open. -/
theorem test_parse_trailing_space_open : parseLine ['0', '0', '0', '0', '0', '0', '0', '1', ' '] =
    (match Config.openLine ['0', '0', '0', '0', '0', '0', '0', '1', ' '] with | some b => .ok (some b) | none => .error .malformedLine) := rfl
/-- N14: P1 shows spaces only. -/
theorem test_parse_tab_before_comment_open : parseLine ['0', '0', '0', '0', '0', '0', '0', '1', '\t', '#'] =
    (match Config.openLine ['0', '0', '0', '0', '0', '0', '0', '1', '\t', '#'] with | some b => .ok (some b) | none => .error .malformedLine) := rfl
/-- N14: white space before a literal is open. -/
theorem test_parse_leading_space_open : parseLine [' ', '0', '0', '0', '0', '0', '0', '0', '1'] =
    (match Config.openLine [' ', '0', '0', '0', '0', '0', '0', '0', '1'] with | some b => .ok (some b) | none => .error .malformedLine) := rfl
/-- N14: a literal of other than eight digits is open. -/
theorem test_parse_short_literal_open : parseLine ['1', '0'] =
    (match Config.openLine ['1', '0'] with | some b => .ok (some b) | none => .error .malformedLine) := rfl
/-- R71. -/
theorem test_parse_malformed :
    parseLine ['1', '2'] = .error .malformedLine := by decide
/-- R71. -/
theorem test_parse_text_skips_blank :
    (match parseText [[], ['0', '0', '0', '0', '0', '0', '0', '1']] with | .ok bs => bs | .error _ => []) = [1#8] := by decide
/-- W10. -/
theorem test_missing_file_status :
    (match launch none false Config.regInitDefault with | .error e => loadErrorStatus e | .ok _ => 0) = 2 := by decide
/-- V-P1. -/
theorem test_decimal_line :
    decimalDigits 200#8 = ['2', '0', '0'] := by decide
/-- R212. -/
theorem test_trace_at_254 :
    traceOf (st (rg 0#8 0#8 0#8 0#8 0xF4#8) 254 [1#8]) = ⟨254, some 1#8, some 0#8, none, rg 0#8 0#8 0#8 0#8 0xF4#8⟩ := by decide
/-- the LDI example of R100. -/
theorem test_withFetchWord_runs_first :
    after (State.reset.withFetchWord 24 0x080082) (fun t => (t.reg 0, t.pc)) = some (8#8, 3) := by decide
/-- R125, R213. -/
theorem test_withFetchWord_enables_div :
    after (State.reset.withFetchWord 24 0x0700A3) (fun t => (t.reg 0, t.pc)) = some (0#8, 3) := by decide
/-- R70, P1. -/
theorem test_assemble_ldi :
    assemble ['L', 'D', 'I', ' ', 'R', '0', ',', '8'] = some (.ldi 0#8 8#8) ∧
    assemble ['L', 'D', 'I', ' ', 'R', '7', ',', '0', 'x', 'F', '4'] = some (.ldi 7#8 0xF4#8) ∧
    assemble ['L', 'D', 'I', ' ', 'R', '0', ',', '0', '0', '0', '0', '1', '0', '0', '0'] = some (.ldi 0#8 8#8) := by decide
/-- R70. -/
theorem test_assemble_refuses :
    assemble ['P', 'R', 'N', ' ', 'R', '8'] = none ∧ assemble ['L', 'D', 'I', ' ', 'R', '0', ',', '2', '5', '6'] = none := by decide
/-- R70, P2. -/
theorem test_assembler_text :
    assemblerText (.mul 0#8 1#8) = some ['M', 'U', 'L', ' ', 'R', '0', ',', 'R', '1'] := by decide

/-! ## Witnesses: each shows a state and operands that meet a statement's hypotheses together -/

/-- A state at pc 253, the last address at which anything executes (R233), with memory in use and E set. -/
def w0 : State := { st (rg 3#8 4#8 0#8 253#8 1#8) 253 [0x54#8, 3#8, 7#8] with fl := ⟨true, false, false⟩ }

/-- The same with SP at the boundary of a pop (R152). -/
def w1 (sp : Byte) : State := { w0 with regs := rg 3#8 4#8 0#8 253#8 sp }

theorem witness_LdiLoadsImmediate :
    (7#8 : Byte).toNat < 8 ∧ 8 ≤ (8#8 : Byte).toNat := by decide
theorem witness_PrnEmitsRegister :
    (7#8 : Byte).toNat < 8 ∧ 8 ≤ (8#8 : Byte).toNat := by decide
theorem witness_JmpJumpsThroughRegister :
    (7#8 : Byte).toNat < 8 ∧ 8 ≤ (8#8 : Byte).toNat := by decide
theorem witness_MulWrapsProduct :
    (0#8 : Byte).toNat < 8 ∧ (7#8 : Byte).toNat < 8 ∧ 8 ≤ (8#8 : Byte).toNat := by decide
theorem witness_AddWrapsSum :
    (0#8 : Byte).toNat < 8 ∧ (7#8 : Byte).toNat < 8 ∧ 8 ≤ (8#8 : Byte).toNat := by decide
theorem witness_CmpSetsOneFlag :
    (0#8 : Byte).toNat < 8 ∧ (7#8 : Byte).toNat < 8 ∧ 8 ≤ (8#8 : Byte).toNat := by decide
theorem witness_SubWrapsDifference :
    (0#8 : Byte).toNat < 8 ∧ (7#8 : Byte).toNat < 8 ∧ 8 ≤ (8#8 : Byte).toNat := by decide
theorem witness_JneBranchesOnNotEqual :
    State.reset.fl.e = false ∧ w0.fl.e = true ∧ (7#8 : Byte).toNat < 8 ∧ 8 ≤ (8#8 : Byte).toNat := by decide
theorem witness_HltHaltsAfterIncrement_lookahead :
    (∀ p : Fin 2, (st (rg 0#8 0#8 0#8 0#8 0xF4#8) (254 + p) [1#8]).run = .running ∧ (st (rg 0#8 0#8 0#8 0#8 0xF4#8) (254 + p) [1#8]).mem.read (254 + p) = 1#8) ∧
      (∃ t, nextOf (exec .hlt w0) = some t) := ⟨by decide, ⟨_, rfl⟩⟩
theorem witness_PushStoresBelowSp :
    w0.regs[7] ≠ 0#8 ∧ (w1 0#8).regs[7] = 0#8 ∧ (7#8 : Byte).toNat < 8 ∧ 8 ≤ (8#8 : Byte).toNat := by decide
theorem witness_PopLoadsFromSp :
    (w1 0xF3#8).regs[7].toNat < 0xF4 ∧ 0xF4 ≤ (w1 0xF4#8).regs[7].toNat ∧ (6#8 : Byte).toNat < 8 ∧
      (6#8 : Byte).toNat ≠ 7 ∧ (7#8 : Byte).toNat = 7 ∧ 8 ≤ (8#8 : Byte).toNat := by decide
theorem witness_CallPushesAndJumps_elsewhere :
    w0.pc ≤ 253 ∧ w0.regs[7] ≠ 0#8 ∧ w0.regs[7].toNat - 1 ≠ w0.pc + 1 ∧
      ((w0.mem.write (w0.regs[7].toNat - 1) (BitVec.ofNat 8 (w0.pc + 2))).read (w0.pc + 1)).toNat < 8 := by decide
theorem witness_CallPushesAndJumps_over_index :
    ∃ s : State, s.pc ≤ 253 ∧ s.regs[7] ≠ 0#8 ∧ s.regs[7].toNat - 1 = s.pc + 1 ∧
      8 ≤ ((s.mem.write (s.regs[7].toNat - 1) (BitVec.ofNat 8 (s.pc + 2))).read (s.pc + 1)).toNat := ⟨{ w1 255#8 with pc := 253 }, by decide⟩
theorem witness_CallPushesAndJumps_overflow :
    (w1 0#8).pc ≤ 253 ∧ (w1 0#8).regs[7] = 0#8 := by decide
theorem witness_RetPopsPc :
    (w1 0xF3#8).regs[7].toNat < 0xF4 ∧ 0xF4 ≤ (w1 0xF4#8).regs[7].toNat := by decide
theorem witness_JeqBranchesOnEqual :
    w0.fl.e = true ∧ State.reset.fl.e = false ∧ (7#8 : Byte).toNat < 8 ∧ 8 ≤ (8#8 : Byte).toNat := by decide
theorem witness_DivFloorsOrFaults :
    w0.regs[0] ≠ 0#8 ∧ w0.regs[2] = 0#8 ∧ (2#8 : Byte).toNat < 8 ∧ 8 ≤ (8#8 : Byte).toNat := by decide
theorem witness_ConstructionGivesResetValues :
    (6 : Nat) < 7 := by decide
theorem witness_RegisterWritersFrame :
    ∀ i ∈ ([.ldi 7#8 1#8, .add 7#8 1#8, .sub 7#8 1#8, .mul 7#8 1#8, .div 7#8 1#8] : List Instr),
      (nextOf (exec i w0)).isSome = true := by decide
theorem witness_NonWritersFrame :
    ∀ i ∈ ([.prn 7#8, .hlt, .cmp 7#8 1#8, .jmp 7#8, .jeq 7#8, .jne 7#8] : List Instr),
      (nextOf (exec i w0)).isSome = true := by decide
theorem witness_PushersFrame :
    (∀ i ∈ ([.push 7#8, .call 7#8] : List Instr), (nextOf (exec i w0)).isSome = true ∧
      (nextOf (exec i (w1 0#8))).isSome = true) ∧ (pushSpace w0).isOk = true ∧ (pushSpace (w1 0#8)).isOk = false := by decide
theorem witness_PoppersFrame :
    ∀ i ∈ ([.pop 7#8, .ret] : List Instr), (nextOf (exec i (w1 0xF3#8))).isSome = true := by decide
theorem witness_DecodeOfEncode :
    Instr.wellFormed false (.prn 255#8) = true ∧ encode (.prn 255#8) ++ [1#8] = [0x47#8, 255#8, 1#8] := by decide
theorem witness_EncodeOfDecode :
    decode true 0xA3#8 255#8 0#8 = .instr (.div 255#8 0#8) := by decide
theorem witness_IllegalOpcodesRaiseDecodeError :
    ∃ s : State, s.run = .running ∧ s.pc ≤ 253 ∧ s.mem.read s.pc ∉ [0x82#8, 0x47#8, 0x01#8, 0xA2#8, 0xA0#8, 0x45#8,
      0x46#8, 0x50#8, 0x11#8, 0xA7#8, 0x55#8, 0x56#8, 0x54#8] ∧ (s.aluExt = true → s.mem.read s.pc ∉ [0xA1#8, 0xA3#8]) := ⟨st (rg 0#8 0#8 0#8 0#8 0xF4#8) 253 [0xA1#8], by decide⟩
theorem witness_StepRunsDecodedInstruction :
    w0.run = .running ∧ w0.pc ≤ 253 ∧
      decode w0.aluExt (w0.mem.read w0.pc) (w0.mem.read (w0.pc + 1)) (w0.mem.read (w0.pc + 2)) = .instr (.jmp 3#8) := by decide
theorem witness_FetchReadsThreeBytes :
    w0.pc ≤ 253 ∧ ∀ p : Fin 3, (st (rg 0#8 0#8 0#8 0#8 0xF4#8) (254 + p) []).run = .running ∧ (st (rg 0#8 0#8 0#8 0#8 0xF4#8) (254 + p) []).pc = 254 + p := by decide
theorem witness_NoStepUnlessRunning :
    ({ w0 with run := .halted } : State).run ≠ .running := by decide
theorem witness_EveryRunningStepCompletes :
    w0.run = .running := by decide
theorem witness_FaultsArePrecise :
    (stepFault State.reset).isSome = true := by decide
theorem witness_EachInstructionWritesPcOnce :
    ∀ i ∈ ([.ldi 0#8 1#8, .add 0#8 1#8, .sub 0#8 1#8, .mul 0#8 1#8, .div 0#8 1#8, .cmp 0#8 1#8, .prn 0#8, .push 0#8,
      .pop 0#8, .hlt, .call 0#8, .ret, .jmp 0#8, .jeq 0#8, .jne 0#8] : List Instr),
      ((nextOf (exec i w0)).map fun t => t.run.record?.isNone) = some true := by decide
/-- The other branch of JEQ and of JNE. -/
theorem witness_EachInstructionWritesPcOnce_flags_inverted :
    ∀ i ∈ ([.jeq 0#8, .jne 0#8] : List Instr), w0.fl.e = true ∧ State.reset.fl.e = false ∧
      ((nextOf (exec i State.reset)).map fun t => t.run.record?.isNone) = some true := by decide
theorem witness_PlacedWordRunsNext :
    w0.run = .running ∧ w0.pc ≤ 253 ∧ w0.mem.wf ∧ decodeTableWord 24 0x0100A3 = some (.div 0#8 1#8) := by decide
theorem witness_StepKeepsMachineInvariant :
    w0.Inv ∧ (nextOf (step w0)).isSome = true := by decide
theorem witness_LoadPlacesImage :
    (List.replicate 256 (1#8 : Byte)).length ≤ 256 ∧ 256 < (List.replicate 257 (1#8 : Byte)).length := by
  rw [List.length_replicate, List.length_replicate]; decide
/-- Also the hypotheses of OnlyPrnAppendsOutput and OnlyPushAndCallWriteMemory: an exec that answers a next state. -/
theorem witness_OnlyCmpWritesFlags :
    (nextOf (exec (.cmp 0#8 1#8) w0)).map (fun t => t.fl) = some ⟨false, true, false⟩ := by decide
theorem witness_OnlyPrnAppendsOutput :
    (7#8 : Byte).toNat < 8 ∧ (nextOf (exec (.prn 7#8) w0)).map (fun t => t.out) = some [1#8] := by decide
theorem witness_OnlyPushAndCallWriteMemory :
    (nextOf (exec (.push 0#8) w0)).map (fun t => t.mem.read 0) = some 3#8 := by decide
theorem witness_OnlyHltHalts :
    (st (rg 0#8 0#8 0#8 0#8 0xF4#8) 0 [1#8]).run = .running ∧ (st (rg 0#8 0#8 0#8 0#8 0xF4#8) 253 [1#8]).pc ≤ 253 ∧
      (st (rg 0#8 0#8 0#8 0#8 0xF4#8) 253 [1#8]).mem.read 253 = 1#8 ∧ after (st (rg 0#8 0#8 0#8 0#8 0xF4#8) 0 [1#8]) (fun t => t.run) = some .halted := by decide
theorem witness_EndedRunStaysEnded :
    (runFor 1 (st (rg 0#8 0#8 0#8 0#8 0xF4#8) 0 [1#8])).run.terminal = true := by decide
theorem witness_SelfJumpNeverEnds :
    (3#8 : Byte).toNat < 8 ∧ w0.run = .running ∧ w0.pc ≤ 253 ∧ w0.mem.read w0.pc = 0x54#8 ∧
      w0.mem.read (w0.pc + 1) = 3#8 ∧ w0.regs[3].toNat = w0.pc := by decide
theorem witness_FlagsLAndGAreUnread :
    (⟨true, true, true⟩ : Flags).e = w0.fl.e ∧ (nextOf (step w0)).isSome = true := by decide
theorem witness_AluExtDecidesTwoBytesOnly :
    w0.mem.read w0.pc ≠ 0xA1#8 ∧ w0.mem.read w0.pc ≠ 0xA3#8 ∧ (nextOf (step w0)).isSome = true := by decide
theorem witness_PushPopRoundTrip :
    w0.mem.wf ∧ 1 ≤ w0.regs[7].toNat ∧ w0.regs[7].toNat ≤ 0xF4 ∧ (w1 0xF4#8).regs[7].toNat ≤ 0xF4 ∧
      (w1 0#8).regs[7] = 0#8 ∧ 0xF4 < (w1 0xF5#8).regs[7].toNat := by decide
theorem witness_CallThenRetReturns :
    w0.pc ≤ 253 ∧ w0.regs[7].toNat ≤ 0xF4 ∧
      ((nextOf (exec (.call 3#8) w0)).map fun t => t.run.record?.isNone) = some true ∧
      ((nextOf (exec (.call 3#8) w0)).map fun u => (u.regs[7], u.mem.read 0)) = some (0#8, 255#8) := by decide
theorem witness_ExactlyOneOfJeqJneIsTaken :
    (7#8 : Byte).toNat < 8 := by decide
theorem witness_AluLaws :
    (255#8 : Byte) ≠ 0#8 := by decide
theorem witness_MemoryReadsAndWrites :
    w0.mem.wf ∧ 255 < 256 ∧ 255 ≤ 255 := by decide
theorem witness_FetchSeesPushedByte :
    (0#8 : Byte).toNat < 8 ∧ (w1 254#8).mem.wf ∧ (w1 254#8).regs[7] ≠ 0#8 ∧ (w1 254#8).regs[7].toNat ≤ 254 ∧
      (nextOf (exec (.push 0#8) (w1 254#8))).isSome = true := by decide
theorem witness_TraceSamplesTheFetch :
    (st (rg 0#8 0#8 0#8 0#8 0xF4#8) 254 []).pc = 254 ∧ (st (rg 0#8 0#8 0#8 0#8 0xF4#8) 255 []).pc = 255 ∧ (fetch w0).isOk = true := by decide

end Sys2Proof.Tests
end

namespace Sys2Proof.Machine

/-! ## Fetch, decode and step -/

/-- Everything a fetch can do inside memory (R82). -/
theorem fetch_inside {s : State} (h : s.pc ≤ 253) :
    fetch s = .ok ⟨s.mem.read s.pc, s.mem.read (s.pc + 1), s.mem.read (s.pc + 2)⟩ := by
  have inside : ∀ k ≤ 2, memRead s (s.pc + k) = .ok (s.mem.read (s.pc + k)) := fun k hk =>
    memRead_inside s (by simp only [Config.memSize]; omega)
  have h₀ : memRead s s.pc = .ok (s.mem.read s.pc) := inside 0 (by omega)
  simp [fetch, h₀, inside]

/-- A fetch whose lookahead leaves memory faults at the first address above 255, with the opcode byte if that is in
memory (R82, R203, D5). -/
theorem fetch_outside {s : State} (h : 253 < s.pc) :
    fetch s = .error (.outOfRange (.memory (max s.pc 256)), opcodeAt s) := by
  obtain hp | hp | hp : s.pc = 254 ∨ s.pc = 255 ∨ 256 ≤ s.pc := by omega
  · simp [fetch, memRead, opcodeAt, traceByte, Config.memSize, hp]
  · simp [fetch, memRead, opcodeAt, traceByte, Config.memSize, hp]
  · have hlt : ¬ s.pc < 256 := by omega
    simp [fetch, memRead, opcodeAt, traceByte, Config.memSize, hlt, hp]

/-- A fetch succeeds at 0 to 253 alone, and then it holds the three bytes from pc on (R82). -/
theorem fetch_eq_ok_iff {s : State} {f : Fetched} :
    fetch s = .ok f ↔ s.pc ≤ 253 ∧ f = ⟨s.mem.read s.pc, s.mem.read (s.pc + 1), s.mem.read (s.pc + 2)⟩ := by
  by_cases h : s.pc ≤ 253
  · simp [fetch_inside h, h, eq_comm]
  · simp [fetch_outside (by omega : 253 < s.pc), h]

/-- Fetch and decode read the instruction of the three bytes at pc (R82, R83). -/
theorem fetchDecode_of_decode {s : State} {i : Instr} (h : s.pc ≤ 253)
    (hd : decode s.aluExt (s.mem.read s.pc) (s.mem.read (s.pc + 1)) (s.mem.read (s.pc + 2)) = .instr i) :
    fetchDecode s = .ok i := by
  simp [fetchDecode, fetch_inside h, hd]

/-- A step that reads an instruction runs it (R84, R88). -/
theorem step_of_fetchDecode_ok {s : State} {i : Instr} (hr : s.run = .running) (h : fetchDecode s = .ok i) :
    step s = exec i s := by
  simp [step, hr, h]

/-- A step that reads none takes the fault (R86, R88). -/
theorem step_of_fetchDecode_error {s : State} {c : Cause} {ir : Option Byte} (hr : s.run = .running)
    (h : fetchDecode s = .error (c, ir)) : step s = .next (takeFault c ir s) := by
  simp [step, hr, h]

/-- Everything a step that has a next state can do: run the instruction read, or take the fault of the fetch or the
decoder; the core was Running (R81, R88). -/
theorem step_cases {s t : State} (h : step s = .next t) : s.run = .running ∧
    ((∃ i, fetchDecode s = .ok i ∧ exec i s = .next t) ∨
      ∃ c ir, fetchDecode s = .error (c, ir) ∧ t = takeFault c ir s) := by
  cases hr : s.run with
  | halted => simp [step, hr] at h
  | faulted rec => simp [step, hr] at h
  | running =>
    refine ⟨rfl, ?_⟩
    cases hd : fetchDecode s with
    | ok i => exact .inl ⟨i, rfl, (step_of_fetchDecode_ok hr hd).symm.trans h⟩
    | error e =>
      obtain ⟨c, ir⟩ := e
      rw [step_of_fetchDecode_error hr hd] at h
      cases h
      exact .inr ⟨c, ir, rfl, rfl⟩

/-! ## The opcode table under `ALU_EXT` -/

/-- The rows that only `ALU_EXT` admits are those of SUB and DIV (R66, D2). -/
theorem opcode_of_aluExtOnly :
    ∀ r ∈ opcodeTable, r.aluExtOnly = true → r.opcode = 0xA1#8 ∨ r.opcode = 0xA3#8 := by decide

/-- A byte other than SUB's and DIV's has the same row in both configurations (R66, R83). -/
theorem lookupOpcode_aluExt_irrelevant {ir : Byte} (h₁ : ir ≠ 0xA1#8) (h₃ : ir ≠ 0xA3#8) (e e' : Bool) :
    lookupOpcode e ir = lookupOpcode e' ir := by
  refine List.find?_congr fun r hr => ?_
  by_cases hop : r.opcode = ir
  · have hx : r.aluExtOnly = false := by
      by_contra hx
      rcases opcode_of_aluExtOnly r hr (by simpa using hx) with h | h
      · exact h₁ (hop ▸ h)
      · exact h₃ (hop ▸ h)
    simp [hx]
  · have hne : (r.opcode == ir) = false := beq_eq_false_iff_ne.mpr hop
    simp [hne]

/-- The decoder reads a byte other than SUB's and DIV's alike in both configurations (R67, R83). -/
theorem decode_aluExt_irrelevant {ir : Byte} (h₁ : ir ≠ 0xA1#8) (h₃ : ir ≠ 0xA3#8) (e e' : Bool) (a b : Byte) :
    decode e ir a b = decode e' ir a b := by
  simp only [decode, lookupOpcode_aluExt_irrelevant h₁ h₃ e e']

/-- What the decoder reads with `ALU_EXT` true, a core reads that has it or whose byte does not need it (D2). -/
theorem decode_of_decode_true {ir a b : Byte} {i : Instr} (h : decode true ir a b = .instr i) (e : Bool) :
    decode (e || opcodeNeedsAluExt ir) ir a b = .instr i := by
  by_cases hs : ir = 0xA1#8 ∨ ir = 0xA3#8
  · have hn : opcodeNeedsAluExt ir = true := by rcases hs with rfl | rfl <;> rfl
    rw [hn, Bool.or_true, h]
  · obtain ⟨h₁, h₃⟩ := not_or.mp hs
    rw [decode_aluExt_irrelevant h₁ h₃ _ true, h]

/-- The decoder read an instruction from a table word, so it read it from the word's first three bytes. -/
theorem decode_of_decodeTableWord {nbits w : Nat} {i : Instr} (h : decodeTableWord nbits w = some i) :
    decode true (wordByte nbits w 0) (wordByte nbits w 1) (wordByte nbits w 2) = .instr i := by
  unfold decodeTableWord at h
  cases hd : decode true (wordByte nbits w 0) (wordByte nbits w 1) (wordByte nbits w 2) with
  | instr j => rw [hd] at h; cases h; rfl
  | illegalOpcode ir => rw [hd] at h; cases h

/-! ## A placed word -/

@[simp] theorem State.withFetchWord_pc (s : State) (nbits w : Nat) : (s.withFetchWord nbits w).pc = s.pc := rfl
@[simp] theorem State.withFetchWord_run (s : State) (nbits w : Nat) : (s.withFetchWord nbits w).run = s.run := rfl
@[simp] theorem State.withFetchWord_aluExt (s : State) (nbits w : Nat) :
    (s.withFetchWord nbits w).aluExt = (s.aluExt || opcodeNeedsAluExt (wordByte nbits w 0)) := rfl

/-- The three bytes of a placed word are what is read from pc on (R5). -/
theorem State.withFetchWord_read {s : State} (hm : s.mem.wf) (hpc : s.pc ≤ 253) (nbits w : Nat) {k : Nat} (hk : k ≤ 2) :
    (s.withFetchWord nbits w).mem.read (s.pc + k) = wordByte nbits w k := by
  have h₀ := Memory.poke_wf hm s.pc (wordByte nbits w 0)
  have h₁ := Memory.poke_wf h₀ (s.pc + 1) (wordByte nbits w 1)
  have hin : s.pc < Config.memSize ∧ s.pc + 1 < Config.memSize ∧ s.pc + 2 < Config.memSize := by
    simp only [Config.memSize]; omega
  obtain rfl | rfl | rfl : k = 0 ∨ k = 1 ∨ k = 2 := by omega
  all_goals simp [State.withFetchWord, placeWord, Memory.read_poke h₁, Memory.read_poke h₀, Memory.read_poke hm, hin]

/-- Settles O31: the three placed bytes are what the fetch reads, and the configuration decodes them. -/
theorem placedWordRunsNext : Obligations.PlacedWordRunsNext := by
  intro s nbits w i hr hpc hm hw
  refine step_of_fetchDecode_ok hr (fetchDecode_of_decode hpc ?_)
  have h₀ := State.withFetchWord_read hm hpc nbits w (k := 0) (by omega)
  rw [Nat.add_zero] at h₀
  rw [State.withFetchWord_aluExt, State.withFetchWord_pc, h₀, State.withFetchWord_read hm hpc nbits w (by omega),
    State.withFetchWord_read hm hpc nbits w (by omega)]
  exact decode_of_decode_true (decode_of_decodeTableWord hw) s.aluExt

/-! ## The loaded image -/

/-- Loading changes memory alone (R5). -/
theorem loadFrom_eq (image : List Byte) (base : Nat) (s : State) :
    loadFrom image base s = { s with mem := (loadFrom image base s).mem } := by
  induction image generalizing base s with
  | nil => rfl
  | cons b bs ih => exact ih (base + 1) { s with mem := s.mem.poke base b }

/-- Loading leaves every address below its base as it was. -/
theorem loadFrom_read_below (image : List Byte) {base a : Nat} (ha : a < base) {s : State} (hs : s.mem.wf) :
    (loadFrom image base s).mem.read a = s.mem.read a := by
  induction image generalizing base s with
  | nil => rfl
  | cons b bs ih =>
    have hne : a ≠ base := by omega
    calc (loadFrom bs (base + 1) { s with mem := s.mem.poke base b }).mem.read a
        = (s.mem.poke base b).read a := ih (by omega) (Memory.poke_wf hs base b)
      _ = s.mem.read a := by simp [Memory.read_poke hs, hne]

/-- At `base + k`, a loaded memory holds byte k of the image, and what it held before past the image's end (R71). -/
theorem loadFrom_read_at (image : List Byte) {base : Nat} (hlen : base + image.length ≤ Config.memSize) (k : Nat)
    {s : State} (hs : s.mem.wf) :
    (loadFrom image base s).mem.read (base + k) = image[k]?.getD (s.mem.read (base + k)) := by
  induction image generalizing base k s with
  | nil => rfl
  | cons b bs ih =>
    rw [List.length_cons] at hlen
    have hwf := Memory.poke_wf hs base b
    cases k with
    | zero =>
      calc (loadFrom bs (base + 1) { s with mem := s.mem.poke base b }).mem.read base
          = (s.mem.poke base b).read base := loadFrom_read_below bs (by omega) hwf
        _ = b := by simp [Memory.read_poke hs, (by omega : base < Config.memSize)]
    | succ k =>
      have hold : (s.mem.poke base b).read (base + 1 + k) = s.mem.read (base + 1 + k) := by
        have hne : base + 1 + k ≠ base := by omega
        rw [Memory.read_poke hs, if_neg (fun h => hne h.1)]
      have h := ih (base := base + 1) (by omega) k (s := { s with mem := s.mem.poke base b }) hwf
      rw [hold] at h
      rw [show base + (k + 1) = base + 1 + k by omega]
      exact h

/-- A constructed core with an image in it reads the image's bytes from address 0 on, and 0 past them (R231). -/
theorem loadFrom_construct_read (e : Bool) (r : Vector Byte 7) {image : List Byte} (hlen : image.length ≤ 256) (k : Nat) :
    (loadFrom image 0 (State.construct e r)).mem.read k = image[k]?.getD 0#8 := by
  have h := loadFrom_read_at image (base := 0) (by rwa [Nat.zero_add]) k (State.construct_mem_wf e r)
  rwa [Nat.zero_add] at h

/-- A constructed core with an image in it meets the invariant (R27, R40, R25, R203). -/
theorem loadFrom_construct_inv (e : Bool) (r : Vector Byte 7) (image : List Byte) :
    (loadFrom image 0 (State.construct e r)).Inv := by
  have hmem := loadFrom_wf image 0 (State.construct_mem_wf e r)
  rw [loadFrom_eq]
  exact ⟨Nat.zero_le _, hmem, rfl, rfl⟩

/-- Settles O35: the image lies in canonical memory from address 0 on, and only memory differs from construction. -/
theorem loadPlacesImage : Obligations.LoadPlacesImage := by
  intro e r image
  refine ⟨fun hlen => ⟨loadFrom image 0 (State.construct e r), if_neg (Nat.not_lt.mpr hlen), fun k hk => ?_,
    fun k hk => ?_, loadFrom_eq .., loadFrom_construct_inv e r image⟩, fun hlen => if_pos hlen⟩
  · rw [loadFrom_construct_read e r hlen, List.getElem?_eq_getElem hk, Option.getD_some]
  · rw [loadFrom_construct_read e r hlen, List.getElem?_eq_none hk, Option.getD_none]

/-! ## The configuration parameter `ALU_EXT` -/

/-- The same core in a configuration (R10). -/
def State.withAluExt (s : State) (e : Bool) : State := { s with aluExt := e }

@[simp] theorem State.withAluExt_aluExt (s : State) (e : Bool) : (s.withAluExt e).aluExt = e := rfl

/-- An operation on the state neither reads nor writes `ALU_EXT`. -/
def IgnoresAluExt (f : State → Except Cause State) : Prop :=
  ∀ s e, f (s.withAluExt e) = (f s).map fun t => t.withAluExt e

/-- A result that one update of the state gives. -/
theorem ignoresAluExt_ok {g : State → State} (hg : ∀ s e, g (s.withAluExt e) = (g s).withAluExt e) :
    IgnoresAluExt fun s => .ok (g s) := fun s e => congrArg Except.ok (hg s e)

/-- One operation after another. -/
theorem IgnoresAluExt.bind {f g : State → Except Cause State} (hf : IgnoresAluExt f) (hg : IgnoresAluExt g) :
    IgnoresAluExt fun s => f s >>= g := by
  intro s e
  show (f (s.withAluExt e) >>= g) = (f s >>= g).map fun t => t.withAluExt e
  rw [hf s e]
  cases f s with
  | ok t => exact hg t e
  | error c => rfl

/-- An operation after a read that the configuration has no say in. -/
theorem ignoresAluExt_read {α : Type} {q : State → Except Cause α} {g : α → State → Except Cause State}
    (hq : ∀ s e, q (s.withAluExt e) = q s) (hg : ∀ v, IgnoresAluExt (g v)) :
    IgnoresAluExt fun s => q s >>= fun v => g v s := by
  intro s e
  show (q (s.withAluExt e) >>= fun v => g v (s.withAluExt e)) =
    (q s >>= fun v => g v s).map fun t => t.withAluExt e
  rw [hq s e]
  cases q s with
  | ok v => exact hg v s e
  | error c => rfl

/-- A choice between two operations by a bit that the configuration has no say in. -/
theorem ignoresAluExt_ite {b : State → Bool} (v : Bool) {f g : State → Except Cause State}
    (hb : ∀ s e, b (s.withAluExt e) = b s) (hf : IgnoresAluExt f) (hg : IgnoresAluExt g) :
    IgnoresAluExt fun s => if b s = v then f s else g s := by
  intro s e
  by_cases h : b s = v
  · simpa [hb s e, h] using hf s e
  · simpa [hb s e, h] using hg s e

/-- An operation after a check of an operand. -/
theorem ignoresAluExt_check {α : Type} (r : Except Cause α) {g : α → State → Except Cause State}
    (hg : ∀ v, IgnoresAluExt (g v)) : IgnoresAluExt fun s => r >>= fun v => g v s :=
  ignoresAluExt_read (fun _ _ => rfl) hg

/-- The bound of a push and the decrement (R151). -/
theorem ignoresAluExt_pushSpace : IgnoresAluExt pushSpace := by
  intro s e
  show (if s.sp = 0#8 then _ else _) = Except.map _ (if s.sp = 0#8 then _ else _)
  split <;> rfl

/-- MemWrite (R43). -/
theorem ignoresAluExt_memWrite (a : Nat) (v : Byte) : IgnoresAluExt fun s => memWrite s a v := by
  intro s e
  show (if a < Config.memSize then _ else _) = Except.map _ (if a < Config.memSize then _ else _)
  split <;> rfl

/-- A jump through a register (R170). -/
theorem ignoresAluExt_jumpThrough (t : Byte) : IgnoresAluExt (jumpThrough t) :=
  ignoresAluExt_check (checkReg t) fun _ => ignoresAluExt_ok fun _ _ => rfl

/-- An ALU operation in place (R120). -/
theorem ignoresAluExt_aluInPlace (f : Byte → Byte → Except Cause Byte) (a b : Byte) :
    IgnoresAluExt (aluInPlace f a b) :=
  ignoresAluExt_check (checkPair a b) fun (i, j) =>
    ignoresAluExt_read (q := fun s => f (s.reg i) (s.reg j)) (fun _ _ => rfl) fun _ => ignoresAluExt_ok fun _ _ => rfl

/-- An instruction whose writes leave `ALU_EXT` out does the same in both configurations (R86, R88). -/
theorem IgnoresAluExt.exec {i : Instr} {f : State → Except Cause State}
    (hx : ∀ s, exec i s = complete (opcodeOf i) s (f s)) (hf : IgnoresAluExt f) {s t : State}
    (h : exec i s = .next t) (e : Bool) : Machine.exec i (s.withAluExt e) = .next (t.withAluExt e) := by
  rw [hx s] at h
  rw [hx (s.withAluExt e), hf s e]
  rcases complete_cases h with hs | ⟨c, hs, rfl⟩
  · rw [hs]; rfl
  · rw [hs]; rfl

/-- Every instruction does the same in both configurations (R84): only the decoder looks at `ALU_EXT` (R83). -/
theorem exec_withAluExt {i : Instr} {s t : State} (h : exec i s = .next t) (e : Bool) :
    exec i (s.withAluExt e) = .next (t.withAluExt e) := by
  cases i
  case hlt => exact (ignoresAluExt_ok (g := fun s => (s.advance 1).halt) fun _ _ => rfl).exec (fun _ => rfl) h e
  all_goals refine IgnoresAluExt.exec (fun _ => rfl) ?_ h e
  case ldi a b => exact ignoresAluExt_check (checkReg a) fun _ => ignoresAluExt_ok fun _ _ => rfl
  case prn a => exact ignoresAluExt_check (checkReg a) fun _ => ignoresAluExt_ok fun _ _ => rfl
  case mul a b => exact ignoresAluExt_aluInPlace _ a b
  case add a b => exact ignoresAluExt_aluInPlace _ a b
  case sub a b => exact ignoresAluExt_aluInPlace _ a b
  case div a b => exact ignoresAluExt_aluInPlace _ a b
  case cmp a b => exact ignoresAluExt_check (checkPair a b) fun _ => ignoresAluExt_ok fun _ _ => rfl
  case push a =>
    exact ignoresAluExt_check (checkReg a) fun i => ignoresAluExt_pushSpace.bind <|
      IgnoresAluExt.bind (fun s => ignoresAluExt_memWrite s.sp.toNat (s.reg i) s) <| ignoresAluExt_ok fun _ _ => rfl
  case pop a =>
    exact ignoresAluExt_check (checkReg a) fun _ => ignoresAluExt_read (q := popByte) (fun _ _ => rfl) fun _ =>
      ignoresAluExt_ok fun _ _ => rfl
  case call t =>
    exact ignoresAluExt_pushSpace.bind <|
      IgnoresAluExt.bind (fun s => ignoresAluExt_memWrite s.sp.toNat (wrap (s.pc + 2)) s) <|
        ignoresAluExt_read (q := fun s => memRead s (s.pc + 1)) (fun _ _ => rfl) ignoresAluExt_jumpThrough
  case ret =>
    exact ignoresAluExt_read (q := popByte) (fun _ _ => rfl) fun _ => ignoresAluExt_ok fun _ _ => rfl
  case jmp a => exact ignoresAluExt_jumpThrough a
  case jeq a =>
    exact ignoresAluExt_ite (b := fun s => s.fl.e) true (fun _ _ => rfl) (ignoresAluExt_jumpThrough a) <|
      ignoresAluExt_ok fun _ _ => rfl
  case jne a =>
    exact ignoresAluExt_ite (b := fun s => s.fl.e) false (fun _ _ => rfl) (ignoresAluExt_jumpThrough a) <|
      ignoresAluExt_ok fun _ _ => rfl

/-- No instruction changes `ALU_EXT` (R30): it does in its own configuration what it does in that one. -/
theorem exec_aluExt {i : Instr} {s t : State} (h : exec i s = .next t) : t.aluExt = s.aluExt := by
  have ht : exec i s = .next (t.withAluExt s.aluExt) := exec_withAluExt h s.aluExt
  have hu : t = t.withAluExt s.aluExt := by simpa [h] using ht
  rw [hu, State.withAluExt_aluExt]

/-- No step changes `ALU_EXT` (R30). -/
theorem step_aluExt {s t : State} (h : step s = .next t) : t.aluExt = s.aluExt := by
  obtain ⟨-, ⟨i, -, hx⟩ | ⟨c, ir, -, rfl⟩⟩ := step_cases h
  · exact exec_aluExt hx
  · exact takeFault_aluExt s c ir

/-- A fetch has no configuration (R82). -/
theorem fetch_withAluExt (s : State) (e : Bool) : fetch (s.withAluExt e) = fetch s := rfl

/-- Fetch and decode read a byte other than SUB's and DIV's alike in both configurations (R67, R83). -/
theorem fetchDecode_withAluExt {s : State} (h₁ : s.mem.read s.pc ≠ 0xA1#8) (h₃ : s.mem.read s.pc ≠ 0xA3#8) (e : Bool) :
    fetchDecode (s.withAluExt e) = fetchDecode s := by
  unfold fetchDecode
  rw [fetch_withAluExt]
  cases hf : fetch s with
  | error c => rfl
  | ok f =>
    obtain ⟨-, rfl⟩ := fetch_eq_ok_iff.mp hf
    simp only [decode_aluExt_irrelevant h₁ h₃ (s.withAluExt e).aluExt s.aluExt]
    rfl

/-- A step over a byte other than SUB's and DIV's is the same in both configurations (R67, D2). -/
theorem step_withAluExt {s t : State} (h₁ : s.mem.read s.pc ≠ 0xA1#8) (h₃ : s.mem.read s.pc ≠ 0xA3#8)
    (h : step s = .next t) (e : Bool) : step (s.withAluExt e) = .next (t.withAluExt e) := by
  have hd := fetchDecode_withAluExt h₁ h₃ e
  obtain ⟨hr, ⟨i, hi, hx⟩ | ⟨c, ir, hc, rfl⟩⟩ := step_cases h
  · rw [step_of_fetchDecode_ok (s := s.withAluExt e) hr (hd.trans hi)]
    exact exec_withAluExt hx e
  · exact step_of_fetchDecode_error hr (hd.trans hc)

/-- Settles O43: the decoder alone looks at `ALU_EXT`, and only for those two bytes. -/
theorem aluExtDecidesTwoBytesOnly : Obligations.AluExtDecidesTwoBytesOnly :=
  ⟨fun _ _ h => step_aluExt h, fun _ _ e h₁ h₃ h => step_withAluExt h₁ h₃ h e⟩

/-! ## The trace -/

/-- The trace shows a byte inside memory (R212). -/
theorem traceByte_inside (s : State) {a : Nat} (h : a < Config.memSize) : traceByte s a = some (s.mem.read a) :=
  if_pos h

/-- The trace shows no byte above 255 (D21). -/
theorem traceByte_outside (s : State) {a : Nat} (h : ¬ a < Config.memSize) : traceByte s a = none :=
  if_neg h

/-- Settles O51: a fetch succeeds at 0 to 253 alone, where the trace shows its three bytes; at 254 and 255 some of the
three addresses are above 255. -/
theorem traceSamplesTheFetch : Obligations.TraceSamplesTheFetch := by
  intro s
  refine ⟨rfl, rfl, fun f hf => ?_, fun hp => ?_, fun hp => ?_⟩
  · obtain ⟨hpc, rfl⟩ := fetch_eq_ok_iff.mp hf
    have hin : s.pc < Config.memSize ∧ s.pc + 1 < Config.memSize ∧ s.pc + 2 < Config.memSize := by
      simp only [Config.memSize]; omega
    simp [traceOf, traceByte_inside, hin]
  · simp only [traceOf, hp]
    exact ⟨traceByte_inside s (by decide), traceByte_outside s (by decide)⟩
  · simp only [traceOf, hp]
    exact ⟨traceByte_inside s (by decide), traceByte_outside s (by decide), traceByte_outside s (by decide)⟩

end Sys2Proof.Machine

namespace Sys2Proof.Machine

/-! ## What a completing instruction has done -/

/-- A bind of Except that answers: both parts answered. -/
theorem except_bind_eq_ok {α β : Type} {x : Except Cause α} {f : α → Except Cause β} {r : β} (h : x >>= f = .ok r) :
    ∃ v, x = .ok v ∧ f v = .ok r := by
  cases x with
  | ok v => exact ⟨v, rfl, h⟩
  | error c => cases h

/-- An index that passed checkreg is a register's (R12). -/
theorem checkReg_eq_ok {idx : Byte} {i : Fin 8} (h : checkReg idx = .ok i) :
    ∃ hi : idx.toNat < 8, i = ⟨idx.toNat, hi⟩ := by
  rcases checkReg_cases idx with ⟨hi, e⟩ | ⟨-, e⟩
  · exact ⟨hi, Except.ok.inj (h.symm.trans e)⟩
  · cases h.symm.trans e

/-- A jump through a register that completed (R170). -/
theorem jumpThrough_eq_ok {x : Byte} {s t : State} (h : jumpThrough x s = .ok t) :
    ∃ hx : x.toNat < 8, t = s.jump (s.reg ⟨x.toNat, hx⟩) := by
  rcases jumpThrough_cases x s with ⟨hx, e⟩ | ⟨-, e⟩
  · exact ⟨hx, Except.ok.inj (h.symm.trans e)⟩
  · cases h.symm.trans e

/-- The read of a pop that completed (R152). -/
theorem popByte_eq_ok {s : State} {v : Byte} (h : popByte s = .ok v) :
    s.sp.toNat < 0xF4 ∧ v = s.mem.read s.sp.toNat := by
  rcases popByte_cases s with ⟨-, e⟩ | ⟨hsp, e⟩
  · cases h.symm.trans e
  · exact ⟨hsp, Except.ok.inj (h.symm.trans e)⟩

/-- A read of memory that completed (R42). -/
theorem memRead_eq_ok {s : State} {a : Nat} {v : Byte} (h : memRead s a = .ok v) :
    a < Config.memSize ∧ v = s.mem.read a := by
  by_cases ha : a < Config.memSize
  · exact ⟨ha, Except.ok.inj (h.symm.trans (memRead_inside s ha))⟩
  · cases h.symm.trans (memRead_outside s ha)

/-- An ALU operation in place that completed (R120). -/
theorem aluInPlace_eq_ok {f : Byte → Byte → Except Cause Byte} {a b : Byte} {s t : State}
    (h : aluInPlace f a b s = .ok t) : ∃ (ha : a.toNat < 8) (hb : b.toNat < 8) (r : Byte),
      f (s.reg ⟨a.toNat, ha⟩) (s.reg ⟨b.toNat, hb⟩) = .ok r ∧ t = (s.setReg ⟨a.toNat, ha⟩ r).advance 3 := by
  rcases aluInPlace_cases f a b s with ⟨ha, hb, e⟩ | ⟨-, e⟩ | ⟨-, -, e⟩
  · rw [e] at h
    cases hf : f (s.reg ⟨a.toNat, ha⟩) (s.reg ⟨b.toNat, hb⟩) with
    | ok r => rw [hf] at h; cases h; exact ⟨ha, hb, r, hf, rfl⟩
    | error c => rw [hf] at h; cases h
  · cases h.symm.trans e
  · cases h.symm.trans e

/-- SP one lower, as an admitted push leaves it (R151). -/
def State.lowerSp (s : State) : State := s.setReg spIndex (s.sp - 1#8)

/-- A byte on the stack: SP one lower, and the byte there (R151). -/
def State.push (s : State) (v : Byte) : State :=
  { s.lowerSp with mem := s.mem.write (s.sp - 1#8).toNat v }

@[simp] theorem State.push_regs (s : State) (v : Byte) : (s.push v).regs = s.regs.set spIndex (s.sp - 1#8) := rfl
@[simp] theorem State.push_fl (s : State) (v : Byte) : (s.push v).fl = s.fl := rfl
@[simp] theorem State.push_pc (s : State) (v : Byte) : (s.push v).pc = s.pc := rfl
@[simp] theorem State.push_run (s : State) (v : Byte) : (s.push v).run = s.run := rfl
@[simp] theorem State.push_mem (s : State) (v : Byte) : (s.push v).mem = s.mem.write (s.sp - 1#8).toNat v := rfl
@[simp] theorem State.push_out (s : State) (v : Byte) : (s.push v).out = s.out := rfl
@[simp] theorem State.push_aluExt (s : State) (v : Byte) : (s.push v).aluExt = s.aluExt := rfl

/-- The bound of a push that completed (R151). -/
theorem pushSpace_eq_ok {s t : State} (h : pushSpace s = .ok t) : s.sp ≠ 0#8 ∧ t = s.lowerSp := by
  rcases pushSpace_cases s with ⟨-, e⟩ | ⟨hsp, e⟩
  · cases h.symm.trans e
  · exact ⟨hsp, Except.ok.inj (h.symm.trans e)⟩

/-- The store of a push completes and puts its byte on the stack (R151). -/
theorem memWrite_lowerSp {s t : State} {v : Byte} (h : memWrite s.lowerSp s.lowerSp.sp.toNat v = .ok t) :
    t = s.push v := by
  have hsp : s.lowerSp.sp = s.sp - 1#8 := by simp [State.lowerSp, State.sp]
  rw [memWrite_byte, hsp] at h
  exact (Except.ok.inj h).symm

/-- The state that each instruction leaves when it completes, and what it has checked on the way (R84, R85). -/
inductive Completes (s : State) : Instr → State → Prop
  | ldi {a b : Byte} (ha : a.toNat < 8) : Completes s (.ldi a b) ((s.setReg ⟨a.toNat, ha⟩ b).advance 3)
  | prn {a : Byte} (ha : a.toNat < 8) : Completes s (.prn a) ((s.emit (s.reg ⟨a.toNat, ha⟩)).advance 2)
  | hlt : Completes s .hlt (s.advance 1).halt
  | mul {a b : Byte} (ha : a.toNat < 8) (hb : b.toNat < 8) : Completes s (.mul a b)
      ((s.setReg ⟨a.toNat, ha⟩ (aluMul (s.reg ⟨a.toNat, ha⟩) (s.reg ⟨b.toNat, hb⟩))).advance 3)
  | add {a b : Byte} (ha : a.toNat < 8) (hb : b.toNat < 8) : Completes s (.add a b)
      ((s.setReg ⟨a.toNat, ha⟩ (aluAdd (s.reg ⟨a.toNat, ha⟩) (s.reg ⟨b.toNat, hb⟩))).advance 3)
  | push {a : Byte} (ha : a.toNat < 8) (hsp : s.sp ≠ 0#8) :
      Completes s (.push a) ((s.push (s.lowerSp.reg ⟨a.toNat, ha⟩)).advance 2)
  | pop {a : Byte} (ha : a.toNat < 8) (hsp : s.sp.toNat < 0xF4) :
      Completes s (.pop a) ((popSpace (s.setReg ⟨a.toNat, ha⟩ (s.mem.read s.sp.toNat))).advance 2)
  | call {x t : Byte} {u : State} (hsp : s.sp ≠ 0#8) (hu : u = s.push (wrap (s.pc + 2)))
      (hpc : s.pc + 1 < Config.memSize) (ht : t = u.mem.read (s.pc + 1)) (hi : t.toNat < 8) :
      Completes s (.call x) (u.jump (u.reg ⟨t.toNat, hi⟩))
  | ret (hsp : s.sp.toNat < 0xF4) : Completes s .ret ((popSpace s).jump (s.mem.read s.sp.toNat))
  | cmp {a b : Byte} (ha : a.toNat < 8) (hb : b.toNat < 8) : Completes s (.cmp a b)
      ((s.setFlags (compareFlags (s.reg ⟨a.toNat, ha⟩) (s.reg ⟨b.toNat, hb⟩))).advance 3)
  | jeqTaken {a : Byte} (he : s.fl.e = true) (ha : a.toNat < 8) :
      Completes s (.jeq a) (s.jump (s.reg ⟨a.toNat, ha⟩))
  | jeqPassed {a : Byte} (he : s.fl.e = false) : Completes s (.jeq a) (s.advance 2)
  | jneTaken {a : Byte} (he : s.fl.e = false) (ha : a.toNat < 8) :
      Completes s (.jne a) (s.jump (s.reg ⟨a.toNat, ha⟩))
  | jnePassed {a : Byte} (he : s.fl.e = true) : Completes s (.jne a) (s.advance 2)
  | jmp {a : Byte} (ha : a.toNat < 8) : Completes s (.jmp a) (s.jump (s.reg ⟨a.toNat, ha⟩))
  | sub {a b : Byte} (ha : a.toNat < 8) (hb : b.toNat < 8) : Completes s (.sub a b)
      ((s.setReg ⟨a.toNat, ha⟩ (aluSub (s.reg ⟨a.toNat, ha⟩) (s.reg ⟨b.toNat, hb⟩))).advance 3)
  | div {a b q : Byte} (ha : a.toNat < 8) (hb : b.toNat < 8)
      (hq : aluDiv (s.reg ⟨a.toNat, ha⟩) (s.reg ⟨b.toNat, hb⟩) = .ok q) :
      Completes s (.div a b) ((s.setReg ⟨a.toNat, ha⟩ q).advance 3)

/-- Everything an instruction that has a next state can do: complete, or take a fault (R84, R86, R88). -/
theorem exec_cases {i : Instr} {s t : State} (h : exec i s = .next t) :
    Completes s i t ∨ ∃ c, t = takeFault c (some (opcodeOf i)) s := by
  cases i
  case hlt => cases h; exact .inl .hlt
  all_goals
    obtain h | ⟨c, -, ht⟩ := complete_cases h
    case inr => exact .inr ⟨c, ht⟩
    left
  case ldi a b =>
    obtain ⟨i, hi, h⟩ := except_bind_eq_ok h
    obtain ⟨ha, rfl⟩ := checkReg_eq_ok hi
    cases h
    exact .ldi ha
  case prn a =>
    obtain ⟨i, hi, h⟩ := except_bind_eq_ok h
    obtain ⟨ha, rfl⟩ := checkReg_eq_ok hi
    cases h
    exact .prn ha
  case mul a b =>
    obtain ⟨ha, hb, r, hr, rfl⟩ := aluInPlace_eq_ok h
    cases hr
    exact .mul ha hb
  case add a b =>
    obtain ⟨ha, hb, r, hr, rfl⟩ := aluInPlace_eq_ok h
    cases hr
    exact .add ha hb
  case push a =>
    obtain ⟨i, hi, h⟩ := except_bind_eq_ok h
    obtain ⟨s₁, h₁, h⟩ := except_bind_eq_ok h
    obtain ⟨s₂, h₂, h⟩ := except_bind_eq_ok h
    obtain ⟨ha, rfl⟩ := checkReg_eq_ok hi
    obtain ⟨hsp, rfl⟩ := pushSpace_eq_ok h₁
    obtain rfl := memWrite_lowerSp h₂
    cases h
    exact .push ha hsp
  case pop a =>
    obtain ⟨i, hi, h⟩ := except_bind_eq_ok h
    obtain ⟨v, hv, h⟩ := except_bind_eq_ok h
    obtain ⟨ha, rfl⟩ := checkReg_eq_ok hi
    obtain ⟨hsp, rfl⟩ := popByte_eq_ok hv
    cases h
    exact .pop ha hsp
  case call x =>
    obtain ⟨s₁, h₁, h⟩ := except_bind_eq_ok h
    obtain ⟨s₂, h₂, h⟩ := except_bind_eq_ok h
    obtain ⟨v, hv, h⟩ := except_bind_eq_ok h
    obtain ⟨hsp, rfl⟩ := pushSpace_eq_ok h₁
    obtain rfl := memWrite_lowerSp h₂
    obtain ⟨hpc, hv⟩ := memRead_eq_ok hv
    obtain ⟨hi, rfl⟩ := jumpThrough_eq_ok h
    exact .call hsp rfl hpc hv hi
  case ret =>
    obtain ⟨v, hv, h⟩ := except_bind_eq_ok h
    obtain ⟨hsp, rfl⟩ := popByte_eq_ok hv
    cases h
    exact .ret hsp
  case cmp a b =>
    obtain ⟨p, hp, h⟩ := except_bind_eq_ok h
    obtain ⟨i, hi, hp⟩ := except_bind_eq_ok hp
    obtain ⟨j, hj, hp⟩ := except_bind_eq_ok hp
    obtain ⟨ha, rfl⟩ := checkReg_eq_ok hi
    obtain ⟨hb, rfl⟩ := checkReg_eq_ok hj
    cases hp
    cases h
    exact .cmp ha hb
  case jeq a =>
    by_cases he : s.fl.e = true
    · rw [if_pos he] at h
      obtain ⟨ha, rfl⟩ := jumpThrough_eq_ok h
      exact .jeqTaken he ha
    · rw [if_neg he] at h
      cases h
      exact .jeqPassed (by simpa using he)
  case jne a =>
    by_cases he : s.fl.e = false
    · rw [if_pos he] at h
      obtain ⟨ha, rfl⟩ := jumpThrough_eq_ok h
      exact .jneTaken he ha
    · rw [if_neg he] at h
      cases h
      exact .jnePassed (by simpa using he)
  case jmp a =>
    obtain ⟨ha, rfl⟩ := jumpThrough_eq_ok h
    exact .jmp ha
  case sub a b =>
    obtain ⟨ha, hb, r, hr, rfl⟩ := aluInPlace_eq_ok h
    cases hr
    exact .sub ha hb
  case div a b =>
    obtain ⟨ha, hb, q, hq, rfl⟩ := aluInPlace_eq_ok h
    exact .div ha hb hq

/-! ## The machine's invariant -/

/-- The decoder reads an instruction from its own opcode byte (R66, R83). -/
theorem opcodeOf_of_decode {e : Bool} {ir a b : Byte} {i : Instr} (h : decode e ir a b = .instr i) :
    opcodeOf i = ir := by
  have rows : ∀ r ∈ opcodeTable, opcodeOf (r.build a b) = r.opcode := by simp [opcodeTable, opcodeOf]
  unfold decode at h
  split at h
  · rename_i r hr
    cases h
    have hrow := List.find?_some hr
    simp only [Bool.and_eq_true, beq_iff_eq] at hrow
    exact (rows r (List.mem_of_find?_eq_some hr)).trans hrow.1
  · cases h

/-- An instruction read by fetch and decode lies at 0 to 253, and its opcode byte at pc (R82, R83). -/
theorem fetchDecode_eq_ok {s : State} {i : Instr} (h : fetchDecode s = .ok i) :
    s.pc ≤ 253 ∧ s.mem.read s.pc = opcodeOf i := by
  unfold fetchDecode at h
  cases hf : fetch s with
  | error e => simp [hf] at h
  | ok f =>
    obtain ⟨hpc, rfl⟩ := fetch_eq_ok_iff.mp hf
    simp only [hf] at h
    split at h
    · cases h
    · rename_i j hd
      cases h
      exact ⟨hpc, (opcodeOf_of_decode hd).symm⟩

/-- The byte at pc, inside memory, is the one a fault record gives (R203). -/
theorem opcodeAt_inside {s : State} (h : s.pc ≤ 253) : opcodeAt s = some (s.mem.read s.pc) :=
  traceByte_inside s (by simp only [Config.memSize]; omega)

/-- The decoder's fault names the byte it was given (R67). -/
theorem illegalOpcode_of_decode {e : Bool} {ir a b ir' : Byte} (h : decode e ir a b = .illegalOpcode ir') :
    ir' = ir := by
  unfold decode at h
  split at h
  · cases h
  · cases h; rfl

/-- A fault of the fetch or the decoder records the opcode byte at pc, or none outside memory (R203). -/
theorem fetchDecode_eq_error {s : State} {c : Cause} {ir : Option Byte} (h : fetchDecode s = .error (c, ir)) :
    ir = opcodeAt s := by
  by_cases hpc : s.pc ≤ 253
  · simp only [fetchDecode, fetch_inside hpc] at h
    split at h
    · rename_i ir' hd
      cases h
      rw [opcodeAt_inside hpc, illegalOpcode_of_decode hd]
    · cases h
  · simp only [fetchDecode, fetch_outside (Nat.lt_of_not_le hpc)] at h
    cases h
    rfl

/-- An instruction run from where a fetch admits it leaves pc in range (R27, R85). -/
theorem Completes.pc_le {i : Instr} {s t : State} (h : Completes s i t) (hpc : s.pc ≤ 253) : t.pc ≤ 256 := by
  have target : ∀ (u : State) (v : Byte), (u.jump v).pc ≤ 256 := fun _ v => Nat.le_of_lt v.isLt
  have passed : ∀ n ≤ 3, s.pc + n ≤ 256 := fun n hn => by omega
  cases h with
  | call | ret | jeqTaken | jneTaken | jmp => exact target _ _
  | hlt => exact passed 1 (by decide)
  | prn | push | pop | jeqPassed | jnePassed => exact passed 2 (by decide)
  | ldi | mul | add | cmp | sub | div => exact passed 3 (by decide)

/-- A completing instruction keeps memory canonical (R40). -/
theorem Completes.mem_wf {i : Instr} {s t : State} (h : Completes s i t) (hm : s.mem.wf) : t.mem.wf := by
  have pushed : ∀ v, (s.push v).mem.wf := fun v => Memory.write_wf hm (byte_is_address _) v
  cases h with
  | push => exact pushed _
  | call _ hu => exact hu ▸ pushed _
  | _ => exact hm

/-- A completing instruction leaves the run state as it was, or halts (R87). -/
theorem Completes.run {i : Instr} {s t : State} (h : Completes s i t) : t.run = s.run ∨ t.run = .halted := by
  cases h with
  | hlt => exact .inr rfl
  | call _ hu => subst hu; exact .inl rfl
  | _ => exact .inl rfl

/-- A comparison sets exactly one flag (R126). -/
theorem compareFlags_exactlyOne (u v : Byte) : (compareFlags u v).exactlyOne = true := by
  rcases Nat.lt_trichotomy u.toNat v.toNat with h | h | h
  · simp [compareFlags, Flags.exactlyOne, Flags.exclusive, h, h.ne, h.le]
  · simp [compareFlags, Flags.exactlyOne, Flags.exclusive, h]
  · simp [compareFlags, Flags.exactlyOne, Flags.exclusive, h, h.ne', h.le]

/-- A completing instruction other than CMP keeps the flags, and CMP sets exactly one (R25, R121). -/
theorem Completes.fl {i : Instr} {s t : State} (h : Completes s i t) :
    t.fl = s.fl ∨ ∃ a b, i = .cmp a b ∧ t.fl.exactlyOne = true := by
  cases h with
  | cmp => exact .inr ⟨_, _, rfl, compareFlags_exactlyOne _ _⟩
  | call _ hu => subst hu; exact .inl rfl
  | _ => exact .inl rfl

/-- An instruction other than CMP, and every fault, keeps the flags; a completing CMP sets exactly one (R25, R121). -/
theorem exec_fl {i : Instr} {s t : State} (h : exec i s = .next t) :
    t.fl = s.fl ∨ ∃ a b, i = .cmp a b ∧ t.fl.exactlyOne = true := by
  obtain hc | ⟨c, rfl⟩ := exec_cases h
  · exact hc.fl
  · exact .inl (takeFault_fl s c _)

/-- Settles O36: only a completing CMP writes the flags, and a comparison sets exactly one. -/
theorem onlyCmpWritesFlags : Obligations.OnlyCmpWritesFlags := fun _ _ _ => exec_fl

/-- Flags of which exactly one is set exclude each other (R25). -/
theorem Flags.exclusive_of_exactlyOne {f : Flags} (h : f.exactlyOne = true) : f.exclusive = true :=
  (Bool.and_eq_true_iff.mp h).1

/-- Taking a fault that names the byte at pc keeps the invariant (R86, R203). -/
theorem takeFault_inv {s : State} (h : s.Inv) (c : Cause) {ir : Option Byte} (hir : ir = opcodeAt s) :
    (takeFault c ir s).Inv := by
  obtain ⟨hpc, hmem, hfl, -⟩ := h
  have hrec : (takeFault c ir s).recordPrecise = true := by
    simp only [State.recordPrecise, takeFault_run, takeFault_pc, beq_self_eq_true, Bool.true_and, beq_iff_eq]
    exact hir
  exact ⟨hpc, hmem, hfl, hrec⟩

/-- A completing instruction of a Running core, run from where a fetch admits it, keeps the invariant. -/
theorem Completes.inv {i : Instr} {s t : State} (h : Completes s i t) (hs : s.Inv) (hr : s.run = .running)
    (hpc : s.pc ≤ 253) : t.Inv := by
  obtain ⟨-, hmem, hfl, -⟩ := hs
  have hfl' : t.fl.exclusive = true := by
    obtain e | ⟨a, b, -, h₁⟩ := h.fl
    · rw [e, hfl]
    · exact Flags.exclusive_of_exactlyOne h₁
  have hrec : t.recordPrecise = true := by
    obtain e | e := h.run <;> simp [State.recordPrecise, e, hr]
  exact ⟨h.pc_le hpc, h.mem_wf hmem, hfl', hrec⟩

/-- Settles O32: a step completes the instruction read, or takes a fault that names the byte at pc. -/
theorem stepKeepsMachineInvariant : Obligations.StepKeepsMachineInvariant := by
  intro s t hs h
  obtain ⟨hr, ⟨i, hi, hx⟩ | ⟨c, ir, hd, rfl⟩⟩ := step_cases h
  · obtain ⟨hpc, hop⟩ := fetchDecode_eq_ok hi
    obtain hc | ⟨c, rfl⟩ := exec_cases hx
    · exact hc.inv hs hr hpc
    · exact takeFault_inv hs c (by rw [opcodeAt_inside hpc, hop])
  · exact takeFault_inv hs c (fetchDecode_eq_error hd)

/-! ## The output -/

/-- A completing instruction other than PRN keeps the output, and PRN appends its register's byte (R29, R101). -/
theorem Completes.out {i : Instr} {s t : State} (h : Completes s i t) :
    t.out = s.out ∨ ∃ (a : Byte) (h : a.toNat < 8), i = .prn a ∧ t.out = s.out ++ [s.regs[a.toNat]] := by
  cases h with
  | prn ha => exact .inr ⟨_, ha, rfl, rfl⟩
  | call _ hu => subst hu; exact .inl rfl
  | _ => exact .inl rfl

/-- PRN of a register completes (R101). -/
theorem exec_prn_inside (s : State) {a : Byte} (ha : a.toNat < 8) :
    exec (.prn a) s = .next ((s.emit (s.reg ⟨a.toNat, ha⟩)).advance 2) := by
  show complete _ s (checkReg a >>= _) = _
  rw [checkReg_inside ha]
  rfl

/-- Settles O37: a completing PRN appends its byte; every other instruction, and every fault, keeps the output. -/
theorem onlyPrnAppendsOutput : Obligations.OnlyPrnAppendsOutput := by
  refine ⟨fun _ _ => rfl, fun s a ha => ⟨_, exec_prn_inside s ha, rfl⟩, fun i s t h => ?_⟩
  obtain h | ⟨c, rfl⟩ := exec_cases h
  · exact h.out
  · exact .inl rfl

/-! ## Ended runs -/

/-- There is no step from a terminal state (R81). -/
theorem step_of_terminal {s : State} (h : s.run.terminal = true) (t : State) : step s ≠ .next t := by
  intro hs
  rw [(step_cases hs).1] at h
  cases h

/-- A run goes nowhere from a state that has no step (R89). -/
theorem runFor_of_no_step {s : State} (h : ∀ t, step s ≠ .next t) (n : Nat) : runFor n s = s := by
  cases n with
  | zero => rfl
  | succ n =>
    cases hs : step s with
    | next t => exact absurd hs (h t)
    | fault r => simp [runFor, hs]
    | refused r => simp [runFor, hs]

/-- A run of n + m steps is one of m steps after one of n. -/
theorem runFor_add (n m : Nat) (s : State) : runFor (n + m) s = runFor m (runFor n s) := by
  induction n generalizing s with
  | zero => simp [runFor]
  | succ n ih =>
    rw [Nat.succ_add]
    cases hs : step s with
    | next t => simp [runFor, hs, ih]
    | fault r => simp [runFor, hs, runFor_of_no_step (s := s) (by simp [hs])]
    | refused r => simp [runFor, hs, runFor_of_no_step (s := s) (by simp [hs])]

/-- Settles O40: the steps after the n-th start from a terminal state, which has none. -/
theorem endedRunStaysEnded : Obligations.EndedRunStaysEnded := by
  intro n m s h
  rw [runFor_add]
  exact runFor_of_no_step (step_of_terminal h) m

/-! ## The flags L and G -/

/-- An instruction whose writes go through a change of flags does the same before and after it (R86, R88). -/
theorem complete_setFlags {ir : Byte} {s t : State} {r : Except Cause State} (h : complete ir s r = .next t)
    (f : Flags) : complete ir (s.setFlags f) (r.map fun u => u.setFlags f) = .next (t.setFlags f) := by
  obtain rfl | ⟨c, rfl, rfl⟩ := complete_cases h <;> rfl

/-- After a read that no flag has a say in, writes that go through a change of flags do so together. -/
theorem read_bind_setFlags {α : Type} (q : Except Cause α) {g g' : α → Except Cause State} {f : Flags}
    (hg : ∀ v, g' v = (g v).map fun t => t.setFlags f) : q >>= g' = (q >>= g).map fun t => t.setFlags f := by
  cases q with
  | ok v => exact hg v
  | error c => rfl

/-- Two writes that go through a change of flags do so one after the other. -/
theorem write_bind_setFlags {r r' : Except Cause State} {g : State → Except Cause State} {f : Flags}
    (hr : r' = r.map fun t => t.setFlags f) (hg : ∀ u, g (u.setFlags f) = (g u).map fun t => t.setFlags f) :
    r' >>= g = (r >>= g).map fun t => t.setFlags f := by
  subst hr
  cases r with
  | ok u => exact hg u
  | error c => rfl

/-- The bound of a push reads no flag (R151). -/
theorem pushSpace_setFlags (s : State) (f : Flags) :
    pushSpace (s.setFlags f) = (pushSpace s).map fun t => t.setFlags f := by
  show (if s.sp = 0#8 then _ else _) = Except.map _ (if s.sp = 0#8 then _ else _)
  split <;> rfl

/-- MemWrite reads no flag (R43). -/
theorem memWrite_setFlags (s : State) (a : Nat) (v : Byte) (f : Flags) :
    memWrite (s.setFlags f) a v = (memWrite s a v).map fun t => t.setFlags f := by
  unfold memWrite
  split <;> rfl

/-- A jump through a register reads no flag (R170). -/
theorem jumpThrough_setFlags (x : Byte) (s : State) (f : Flags) :
    jumpThrough x (s.setFlags f) = (jumpThrough x s).map fun t => t.setFlags f :=
  read_bind_setFlags (checkReg x) fun _ => rfl

/-- An ALU operation in place reads no flag (R121). -/
theorem aluInPlace_setFlags (g : Byte → Byte → Except Cause Byte) (a b : Byte) (s : State) (f : Flags) :
    aluInPlace g a b (s.setFlags f) = (aluInPlace g a b s).map fun t => t.setFlags f :=
  read_bind_setFlags (checkPair a b) fun (i, j) => read_bind_setFlags (g (s.reg i) (s.reg j)) fun _ => rfl

/-- CMP overwrites all three flags where it completes, and reads none (R126). -/
theorem exec_cmp_setFlags {a b : Byte} {s t : State} (h : exec (.cmp a b) s = .next t) (f : Flags) :
    exec (.cmp a b) (s.setFlags f) = .next t ∨
      (t.fl = s.fl ∧ exec (.cmp a b) (s.setFlags f) = .next (t.setFlags f)) := by
  simp only [exec, execCmp] at h ⊢
  cases hp : checkPair a b with
  | ok p => rw [hp] at h; cases h; exact .inl rfl
  | error c => rw [hp] at h; cases h; exact .inr ⟨rfl, rfl⟩

/-- An instruction other than CMP does the same whatever L and G are (R25): JEQ and JNE read E, the others no flag. -/
theorem exec_setFlags {i : Instr} {s t : State} {f : Flags} (hi : ∀ a b, i ≠ .cmp a b) (hf : f.e = s.fl.e)
    (h : exec i s = .next t) : exec i (s.setFlags f) = .next (t.setFlags f) := by
  cases i
  case cmp a b => exact absurd rfl (hi a b)
  case hlt => cases h; rfl
  all_goals refine (congrArg (complete _ _) ?_).trans (complete_setFlags h f)
  case ldi a b => exact read_bind_setFlags (checkReg a) fun _ => rfl
  case prn a => exact read_bind_setFlags (checkReg a) fun _ => rfl
  case mul a b => exact aluInPlace_setFlags _ a b s f
  case add a b => exact aluInPlace_setFlags _ a b s f
  case sub a b => exact aluInPlace_setFlags _ a b s f
  case div a b => exact aluInPlace_setFlags _ a b s f
  case push a =>
    exact read_bind_setFlags (checkReg a) fun i => write_bind_setFlags (pushSpace_setFlags s f) fun u =>
      write_bind_setFlags (memWrite_setFlags u u.sp.toNat (u.reg i) f) fun _ => rfl
  case pop a => exact read_bind_setFlags (checkReg a) fun _ => read_bind_setFlags (popByte s) fun _ => rfl
  case call x =>
    exact write_bind_setFlags (pushSpace_setFlags s f) fun u =>
      write_bind_setFlags (memWrite_setFlags u u.sp.toNat (wrap (u.pc + 2)) f) fun v =>
        read_bind_setFlags (memRead v (v.pc + 1)) fun t => jumpThrough_setFlags t v f
  case ret => exact read_bind_setFlags (popByte s) fun _ => rfl
  case jmp a => exact jumpThrough_setFlags a s f
  case jeq a => rw [State.setFlags_fl, hf, jumpThrough_setFlags]; split <;> rfl
  case jne a => rw [State.setFlags_fl, hf, jumpThrough_setFlags]; split <;> rfl

/-- No instruction reads L or G (R25): whatever they are, it leaves the same but for them. -/
theorem exec_reads_no_lg {i : Instr} {s t : State} {f : Flags} (hf : f.e = s.fl.e) (h : exec i s = .next t) :
    ∃ f' : Flags, f'.e = t.fl.e ∧ exec i (s.setFlags f) = .next (t.setFlags f') := by
  by_cases hi : ∃ a b, i = .cmp a b
  · obtain ⟨a, b, rfl⟩ := hi
    obtain hx | ⟨hfl, hx⟩ := exec_cmp_setFlags h f
    · exact ⟨t.fl, rfl, hx⟩
    · exact ⟨f, by rw [hf, hfl], hx⟩
  · have hfl : t.fl = s.fl := (exec_fl h).resolve_right fun ⟨a, b, e, _⟩ => hi ⟨a, b, e⟩
    exact ⟨f, by rw [hf, hfl], exec_setFlags (fun a b e => hi ⟨a, b, e⟩) hf h⟩

/-- Settles O42: fetch and decode read no flag, and no instruction reads L or G. -/
theorem flagsLAndGAreUnread : Obligations.FlagsLAndGAreUnread := by
  intro s t f hf h
  have hd : fetchDecode (s.setFlags f) = fetchDecode s := rfl
  obtain ⟨hr, ⟨i, hi, hx⟩ | ⟨c, ir, hc, rfl⟩⟩ := step_cases h
  · obtain ⟨f', hf', hx'⟩ := exec_reads_no_lg hf hx
    exact ⟨f', hf', (step_of_fetchDecode_ok (s := s.setFlags f) hr (hd.trans hi)).trans hx'⟩
  · exact ⟨f, hf, step_of_fetchDecode_error (s := s.setFlags f) hr (hd.trans hc)⟩

/-! ## Reset -/

/-- Construction meets the invariant for every draw and in both configurations (R33). -/
theorem State.construct_inv (e : Bool) (r : Vector Byte 7) : (State.construct e r).Inv :=
  ⟨Nat.zero_le _, State.construct_mem_wf e r, rfl, rfl⟩

/-- Settles O33: reset is one construction, and every construction has pc 0, empty memory, clear flags and no fault. -/
theorem resetMeetsMachineInvariant : Obligations.ResetMeetsMachineInvariant :=
  ⟨State.construct_inv _ _, State.construct_inv⟩

/-- Settles O34: the draw fills R0 to R6; every other value is construction's own. -/
theorem constructionGivesResetValues : Obligations.ConstructionGivesResetValues := fun e r =>
  ⟨Memory.read_nil, State.construct_sp e r, State.construct_reg e r, rfl, rfl, rfl, rfl⟩

end Sys2Proof.Machine

namespace Sys2Proof.Machine

/-! ## Memory -/

/-- The address a push stores to, one below a nonzero SP (R151). -/
theorem byte_toNat_sub_one {v : Byte} (hv : v ≠ 0#8) : (v - 1#8).toNat = v.toNat - 1 := by
  bv_omega

/-- A push leaves every byte but the one below SP as it was (R151). -/
theorem State.push_read_other {s : State} (hsp : s.sp ≠ 0#8) (v : Byte) {x : Nat} (hx : x ≠ s.sp.toNat - 1) :
    (s.push v).mem.read x = s.mem.read x :=
  Memory.read_write_other s.mem v (by rwa [byte_toNat_sub_one hsp])

/-- A push puts its byte below SP (R151), in canonical memory. -/
theorem State.push_read_same {s : State} (hm : s.mem.wf) (hsp : s.sp ≠ 0#8) (v : Byte) :
    (s.push v).mem.read (s.sp.toNat - 1) = v := by
  rw [← byte_toNat_sub_one hsp]
  exact Memory.read_write_same hm _ v

/-- A completing instruction keeps memory, or it is a PUSH or CALL that wrote no byte but the one below SP (R44). -/
theorem Completes.mem {i : Instr} {s t : State} (h : Completes s i t) :
    t.mem = s.mem ∨ ((∃ a, i = .push a ∨ i = .call a) ∧ s.sp ≠ 0#8 ∧
      ∀ x, x ≠ s.sp.toNat - 1 → t.mem.read x = s.mem.read x) := by
  cases h with
  | push ha hsp => exact .inr ⟨⟨_, .inl rfl⟩, hsp, fun _ => State.push_read_other hsp _⟩
  | call hsp hu =>
    subst hu
    exact .inr ⟨⟨_, .inr rfl⟩, hsp, fun _ => State.push_read_other hsp _⟩
  | _ => exact .inl rfl

/-- Settles O38: a completing instruction writes memory by a push alone, and a fault keeps memory. -/
theorem onlyPushAndCallWriteMemory : Obligations.OnlyPushAndCallWriteMemory := by
  intro i s t h
  obtain hc | ⟨c, rfl⟩ := exec_cases h
  · exact hc.mem
  · exact .inl (takeFault_mem s c _)

/-- A read of another address than the one written is not touched by the write (R49), in or out of memory. -/
theorem memRead_write_other (s : State) {x y : Nat} (v : Byte) (h : y ≠ x) :
    memRead { s with mem := s.mem.write x v } y = memRead s y := by
  simp only [memRead, Memory.read_write_other s.mem v h]

/-- A read of the address written gives the byte written (R49), in canonical memory. -/
theorem memRead_write_same {s : State} (hm : s.mem.wf) {x : Nat} (hx : x < Config.memSize) (v : Byte) :
    memRead { s with mem := s.mem.write x v } x = .ok v := by
  rw [memRead_inside _ hx, Memory.read_write_same hm]

/-- MemWrite outside memory (R43). -/
theorem memWrite_outside (s : State) {a : Nat} (v : Byte) (h : ¬ a < Config.memSize) :
    memWrite s a v = .error (.outOfRange (.memory a)) := by
  simp [memWrite, h]

/-- Settles O48: above 255 both operations fault; within, the write is one write of canonical memory. -/
theorem memoryReadsAndWrites : Obligations.MemoryReadsAndWrites := by
  intro s x v hm
  refine ⟨fun hx => ?_, fun hx => ?_⟩
  · have hout : ¬ x < Config.memSize := Nat.not_lt.mpr hx
    exact ⟨memRead_outside s hout, memWrite_outside s v hout⟩
  · have hin : x < Config.memSize := Nat.lt_succ_of_le hx
    exact ⟨memRead_inside s hin, _, memWrite_inside s v hin, memRead_write_same hm hin v,
      fun _ => memRead_write_other s v, rfl⟩

/-- The bound of a push with SP nonzero lets it through (R151). -/
theorem pushSpace_nonzero {s : State} (hsp : s.sp ≠ 0#8) : pushSpace s = .ok s.lowerSp :=
  if_neg hsp

/-- The store of a push always completes (R43, R151): SP is a byte, so it is an address. -/
theorem memWrite_lowerSp_eq_ok (s : State) (v : Byte) :
    memWrite s.lowerSp s.lowerSp.sp.toNat v = .ok (s.push v) := by
  have h := memWrite_byte s.lowerSp s.lowerSp.sp v
  rw [h, memWrite_lowerSp h]

/-- PUSH of a register with SP nonzero completes (R153). -/
theorem exec_push_inside {s : State} {a : Byte} (ha : a.toNat < 8) (hsp : s.sp ≠ 0#8) :
    exec (.push a) s = .next ((s.push (s.lowerSp.reg ⟨a.toNat, ha⟩)).advance 2) := by
  simp only [exec, execPush, checkReg_inside ha, pushSpace_nonzero hsp, memWrite_lowerSp_eq_ok, bind, Except.bind, pure,
    Except.pure, complete_ok]

/-- Settles O49: an admitted PUSH puts the byte below SP, at most 253, where the fetch reads what memory holds. -/
theorem fetchSeesPushedByte : Obligations.FetchSeesPushedByte := by
  intro s t u a ha hm hsp hle h hu
  cases (exec_push_inside ha hsp).symm.trans h
  subst hu
  have hpc : s.regs[7].toNat - 1 ≤ 253 := by omega
  exact ⟨_, fetch_inside hpc, State.push_read_same hm hsp _⟩

end Sys2Proof.Machine

namespace Sys2Proof.Machine

/-! ## The opcode table, row by row -/

/-- No byte names two rows (R66, R69). -/
theorem opcodeTable_opcode_nodup : (opcodeTable.map OpcodeRow.opcode).Nodup := by decide

/-- Everything a successful lookup says: a row of the table with that byte, which the configuration has (R66, R83). -/
theorem lookupOpcode_eq_some {e : Bool} {ir : Byte} {r : OpcodeRow} (h : lookupOpcode e ir = some r) :
    r ∈ opcodeTable ∧ r.opcode = ir ∧ (e || !r.aluExtOnly) = true := by
  have hrow := List.find?_some h
  simp only [Bool.and_eq_true, beq_iff_eq] at hrow
  exact ⟨List.mem_of_find?_eq_some h, hrow⟩

/-- A row that the configuration has is found at its own byte, since no other row has that byte. -/
theorem lookupOpcode_of_mem {e : Bool} {r : OpcodeRow} (hr : r ∈ opcodeTable) (he : (e || !r.aluExtOnly) = true) :
    lookupOpcode e r.opcode = some r := by
  have hsome : (lookupOpcode e r.opcode).isSome = true :=
    List.find?_isSome.mpr ⟨r, hr, by simpa using he⟩
  obtain ⟨r', hr'⟩ := Option.isSome_iff_exists.mp hsome
  obtain ⟨hmem, hop, -⟩ := lookupOpcode_eq_some hr'
  rw [hr', List.inj_on_of_nodup_map opcodeTable_opcode_nodup hmem hr hop]

/-- Everything a read instruction says: it is built by a row of the table that the configuration has (R83). -/
theorem decode_eq_instr {e : Bool} {ir a b : Byte} {i : Instr} (h : decode e ir a b = .instr i) :
    ∃ r ∈ opcodeTable, r.opcode = ir ∧ (e || !r.aluExtOnly) = true ∧ r.build a b = i := by
  unfold decode at h
  split at h
  · rename_i r hr
    cases h
    obtain ⟨hmem, hop, he⟩ := lookupOpcode_eq_some hr
    exact ⟨r, hmem, hop, he, rfl⟩
  · cases h

/-- A row that the configuration has builds what its byte decodes to (R83). -/
theorem decode_of_mem {e : Bool} {r : OpcodeRow} (hr : r ∈ opcodeTable) (he : (e || !r.aluExtOnly) = true) (a b : Byte) :
    decode e r.opcode a b = .instr (r.build a b) := by
  simp only [decode, lookupOpcode_of_mem hr he]

/-- A byte of no row decodes to no instruction (R67, R83). -/
theorem decode_of_lookupOpcode_none {e : Bool} {ir : Byte} (h : lookupOpcode e ir = none) (a b : Byte) :
    decode e ir a b = .illegalOpcode ir := by
  simp only [decode, h]

/-- The row of an instruction's byte builds it from its own operand bytes, padded with 0 to two (R61, R66). -/
theorem exists_lookupOpcode_opcodeOf (i : Instr) :
    ∃ r, lookupOpcode true (opcodeOf i) = some r ∧ ∃ a b, r.build a b = i := by
  cases i with
  | hlt | ret => exact ⟨_, rfl, 0#8, 0#8, rfl⟩
  | prn a | push a | pop a | call a | jeq a | jne a | jmp a => exact ⟨_, rfl, a, 0#8, rfl⟩
  | ldi a b | mul a b | add a b | cmp a b | sub a b | div a b => exact ⟨_, rfl, a, b, rfl⟩

/-- The rows build every instruction (R66). -/
theorem exists_build_eq (i : Instr) : ∃ r ∈ opcodeTable, ∃ a b, r.build a b = i := by
  obtain ⟨r, hr, hbuild⟩ := exists_lookupOpcode_opcodeOf i
  exact ⟨r, (lookupOpcode_eq_some hr).1, hbuild⟩

/-- A row's condition is that of the instructions it builds (R66, D2). -/
theorem needsAluExt_build {r : OpcodeRow} (hr : r ∈ opcodeTable) (a b : Byte) :
    (r.build a b).needsAluExt = r.aluExtOnly := by
  revert r
  simp [opcodeTable, Instr.needsAluExt]

/-- A row's width is that of the instructions it builds (R61). -/
theorem width_build {r : OpcodeRow} (hr : r ∈ opcodeTable) (a b : Byte) : width (r.build a b) = r.width := by
  revert r
  simp [opcodeTable, width]

/-- What a row builds is encoded by the row's byte and the operand bytes within its width (R60, R61). -/
theorem encode_build {r : OpcodeRow} (hr : r ∈ opcodeTable) (a b : Byte) :
    encode (r.build a b) = [r.opcode, a, b].take r.width := by
  revert r
  simp [opcodeTable, encode, opcodeOf, operandBytes]

/-- A row reads nothing past its width: on bytes that begin with the encoding of an instruction it builds, it builds
that instruction (R61). -/
theorem build_of_encode_append {r : OpcodeRow} (hr : r ∈ opcodeTable) {ir a b a' b' : Byte} {past : List Byte}
    (h : encode (r.build a b) ++ past = [ir, a', b']) : r.opcode = ir ∧ r.build a' b' = r.build a b := by
  revert r
  simp +contextual [opcodeTable, encode, opcodeOf, operandBytes]

/-- A configuration has a row exactly if it has the instructions the row builds (D2). -/
theorem wellFormed_build {r : OpcodeRow} (hr : r ∈ opcodeTable) (e : Bool) (a b : Byte) :
    (r.build a b).wellFormed e = (e || !r.aluExtOnly) := by
  rw [Instr.wellFormed, needsAluExt_build hr]

/-- Settles O22: the row that builds the instruction is found at its byte and reads nothing past its width. -/
theorem decodeOfEncode : Obligations.DecodeOfEncode := by
  intro e i ir a b past hwf hbytes
  obtain ⟨r, hr, x, y, rfl⟩ := exists_build_eq i
  obtain ⟨rfl, hbuild⟩ := build_of_encode_append hr hbytes
  rw [wellFormed_build hr] at hwf
  rw [decode_of_mem hr hwf, hbuild]

/-- Settles O23: the row found at the byte builds the instruction, with the row's condition, width and bytes. -/
theorem encodeOfDecode : Obligations.EncodeOfDecode := by
  intro e i ir a b h
  obtain ⟨r, hr, rfl, he, rfl⟩ := decode_eq_instr h
  exact ⟨(wellFormed_build hr e a b).trans he, by rw [width_build hr, encode_build hr]⟩

/-- Settles O20: the table as it is written. -/
theorem opcodeTableRows : Obligations.OpcodeTableRows := rfl

/-! ## Illegal opcode bytes -/

/-- The opcode bytes that both configurations have (R66). -/
def baseOpcodes : List Byte :=
  [0x82#8, 0x47#8, 0x01#8, 0xA2#8, 0xA0#8, 0x45#8, 0x46#8, 0x50#8, 0x11#8, 0xA7#8, 0x55#8, 0x56#8, 0x54#8]

/-- A row without the `ALU_EXT` condition has one of the base bytes (R66, D2). -/
theorem opcode_of_not_aluExtOnly : ∀ r ∈ opcodeTable, r.aluExtOnly = false → r.opcode ∈ baseOpcodes := by decide

/-- A byte outside the table of its configuration has no row (R67). -/
theorem lookupOpcode_eq_none {e : Bool} {ir : Byte} (h : ir ∉ baseOpcodes)
    (hext : e = true → ir ∉ [0xA1#8, 0xA3#8]) : lookupOpcode e ir = none := by
  by_contra hne
  obtain ⟨r, hl⟩ := Option.ne_none_iff_exists'.mp hne
  obtain ⟨hr, rfl, he⟩ := lookupOpcode_eq_some hl
  cases hx : r.aluExtOnly with
  | false => exact h (opcode_of_not_aluExtOnly r hr hx)
  | true => exact hext (by simpa [hx] using he) (by simpa using opcode_of_aluExtOnly r hr hx)

/-- Fetch and decode fault on a byte of no row, with the byte and its address (R67, R83). -/
theorem fetchDecode_of_lookupOpcode_none {s : State} (hpc : s.pc ≤ 253)
    (h : lookupOpcode s.aluExt (s.mem.read s.pc) = none) :
    fetchDecode s = .error (.decodeError (s.mem.read s.pc) s.pc, some (s.mem.read s.pc)) := by
  simp only [fetchDecode, fetch_inside hpc, decode_of_lookupOpcode_none h]

/-- How many bytes have no row in a configuration (R67). -/
theorem illegalOpcodes_count (e : Bool) :
    ((List.range 256).filter fun n => (lookupOpcode e (BitVec.ofNat 8 n)).isNone).length =
      if e = true then 241 else 243 := by
  cases e <;> decide +kernel

/-- Settles O24: such a byte has no row, so fetch and decode fault and the step takes the fault. -/
theorem illegalOpcodesRaiseDecodeError : Obligations.IllegalOpcodesRaiseDecodeError := by
  refine ⟨fun s hrun hpc hir hext => ?_, illegalOpcodes_count false, illegalOpcodes_count true, by decide⟩
  have hnone : lookupOpcode s.aluExt (s.mem.read s.pc) = none := lookupOpcode_eq_none hir hext
  exact step_of_fetchDecode_error hrun (fetchDecode_of_lookupOpcode_none hpc hnone)

end Sys2Proof.Machine

namespace Sys2Proof.Machine

/-! ## Dispatch: which steps there are -/

/-- Settles O27: a step that has a next state starts from Running. -/
theorem noStepUnlessRunning : Obligations.NoStepUnlessRunning := fun _ hr _ h => hr (step_cases h).1

/-- Every instruction ends the one way that a step ends, with its own opcode byte (R84, R88). -/
theorem exists_exec_eq_complete (i : Instr) (s : State) : ∃ r, exec i s = complete (opcodeOf i) s r := by
  cases i with
  | hlt => exact ⟨.ok (s.advance 1).halt, rfl⟩
  | _ => exact ⟨_, rfl⟩

/-- Every instruction answers a next state from every state: its writes or its fault (R86, R88). -/
theorem exists_exec_eq_next (i : Instr) (s : State) : ∃ t, exec i s = .next t := by
  obtain ⟨r, hr⟩ := exists_exec_eq_complete i s
  cases r with
  | ok t => exact ⟨t, hr⟩
  | error c => exact ⟨_, hr⟩

/-- Settles O28: a Running core runs the instruction read, which answers, or takes the fault of the fetch or decoder. -/
theorem everyRunningStepCompletes : Obligations.EveryRunningStepCompletes := by
  refine ⟨exists_exec_eq_next, fun s hr => ?_⟩
  cases hd : fetchDecode s with
  | ok i => rw [step_of_fetchDecode_ok hr hd]; exact exists_exec_eq_next i s
  | error e => exact ⟨_, step_of_fetchDecode_error hr hd⟩

/-- Settles O25: fetch and decode read that instruction, and the step runs it. -/
theorem stepRunsDecodedInstruction : Obligations.StepRunsDecodedInstruction := fun _ _ hr hpc hd =>
  step_of_fetchDecode_ok hr (fetchDecode_of_decode hpc hd)

/-- A step whose three bytes begin with the encoding of an instruction that the configuration has runs it (R60, R84). -/
theorem step_of_encode {s : State} {i : Instr} {past : List Byte} (hr : s.run = .running) (hpc : s.pc ≤ 253)
    (hi : i.wellFormed s.aluExt = true)
    (hbytes : encode i ++ past = [s.mem.read s.pc, s.mem.read (s.pc + 1), s.mem.read (s.pc + 2)]) :
    step s = exec i s :=
  stepRunsDecodedInstruction s i hr hpc (decodeOfEncode _ i _ _ _ past hi hbytes)

/-- A step whose fetch leaves memory takes the fetch's fault, whatever the bytes are (R82, R86). -/
theorem step_outside {s : State} (hr : s.run = .running) (h : 253 < s.pc) :
    step s = .next (takeFault (.outOfRange (.memory (max s.pc 256))) (opcodeAt s) s) :=
  step_of_fetchDecode_error hr (by simp only [fetchDecode, fetch_outside h])

/-- The opcode byte that a fault record gives, by the last address of memory (R203). -/
theorem opcodeAt_eq (s : State) : opcodeAt s = if s.pc ≤ 255 then some (s.mem.read s.pc) else none := by
  simp only [opcodeAt, traceByte, Config.memSize, Nat.lt_succ_iff]

/-- Settles O26: the fetch reads inside memory up to 253; above, the first address past 255 is max pc 256. -/
theorem fetchReadsThreeBytes : Obligations.FetchReadsThreeBytes := by
  refine fun s => ⟨fetch_inside, fun hr => ⟨fun hp => ?_, fun hp => ?_, fun hp => ?_⟩⟩
  · simp [step_outside hr (by omega : 253 < s.pc), opcodeAt_eq, takeFault, hp]
  · simp [step_outside hr (by omega : 253 < s.pc), opcodeAt_eq, takeFault, hp]
  · have hlt : ¬ s.pc ≤ 255 := by omega
    simp [step_outside hr (by omega : 253 < s.pc), opcodeAt_eq, takeFault, hp, hlt]

/-! ## Faults -/

/-- A completing instruction does not move a Running core to Faulted (R86). -/
theorem Completes.run_ne_faulted {i : Instr} {s t : State} (h : Completes s i t) (hr : s.run = .running)
    (rec : FaultRecord) : t.run ≠ .faulted rec := by
  obtain e | e := h.run <;> simp [e, hr]

/-- A step to Faulted takes one fault, with the opcode byte at pc (R86, R203): no completing instruction faults. -/
theorem step_eq_faulted {s t : State} {rec : FaultRecord} (h : step s = .next t) (hf : t.run = .faulted rec) :
    ∃ c, t = takeFault c (opcodeAt s) s := by
  obtain ⟨hr, ⟨i, hi, hx⟩ | ⟨c, ir, hd, rfl⟩⟩ := step_cases h
  · obtain ⟨hpc, hop⟩ := fetchDecode_eq_ok hi
    obtain hc | ⟨c, rfl⟩ := exec_cases hx
    · exact absurd hf (hc.run_ne_faulted hr rec)
    · exact ⟨c, by rw [opcodeAt_inside hpc, hop]⟩
  · exact ⟨c, by rw [fetchDecode_eq_error hd]⟩

/-- Settles O29: taking a fault changes `run` alone, and its record is that of the instruction at pc. -/
theorem faultsArePrecise : Obligations.FaultsArePrecise := by
  intro s t rec h hf
  obtain ⟨c, rfl⟩ := step_eq_faulted h hf
  cases hf
  exact ⟨rfl, rfl, opcodeAt_eq s⟩

/-! ## The new pc -/

/-- Settles O30: each way to complete writes pc once; the other next states are faults. -/
theorem eachInstructionWritesPcOnce : Obligations.EachInstructionWritesPcOnce := by
  intro i s t h hf
  obtain hc | ⟨c, rfl⟩ := exec_cases h
  · cases hc with
    | ldi | mul | add | cmp | sub | div | prn | push | pop | hlt | ret => rfl
    | call _ hu _ ht hi => subst hu ht; exact ⟨hi, rfl⟩
    | jmp ha => exact ⟨ha, rfl⟩
    | jeqTaken he ha | jneTaken he ha => exact .inl ⟨he, ha, rfl⟩
    | jeqPassed he | jnePassed he => exact .inr ⟨he, rfl⟩
  · exact absurd (takeFault_run s c _) (hf _)

/-! ## Halting -/

/-- A completing instruction that moves a Running core to Halted is HLT, whose writes are pc and `run` (R87, R103). -/
theorem Completes.eq_hlt {i : Instr} {s t : State} (h : Completes s i t) (hr : s.run = .running)
    (ht : t.run = .halted) : i = .hlt ∧ t = (s.advance 1).halt := by
  have kept : s.run ≠ .halted := by simp [hr]
  cases h with
  | hlt => exact ⟨rfl, rfl⟩
  | call _ hu => subst hu; exact absurd ht kept
  | _ => exact absurd ht kept

/-- Settles O39: the byte 0x01 is HLT's encoding, and of all that a step can do only a completing HLT halts. -/
theorem onlyHltHalts : Obligations.OnlyHltHalts := by
  refine ⟨fun s hr hpc hir => ?_, fun s t h ht => ?_⟩
  · exact step_of_encode (i := .hlt) hr hpc (Bool.or_true _) (by rw [hir]; rfl)
  · obtain ⟨hr, ⟨i, hi, hx⟩ | ⟨c, ir, -, rfl⟩⟩ := step_cases h
    · obtain hc | ⟨c, rfl⟩ := exec_cases hx
      · obtain ⟨rfl, rfl⟩ := hc.eq_hlt hr ht
        exact ⟨(fetchDecode_eq_ok hi).2, rfl, step_of_terminal rfl⟩
      · cases ht
    · cases ht

/-! ## A self jump -/

/-- JMP through a register completes (R173). -/
theorem exec_jmp_inside (s : State) {a : Byte} (ha : a.toNat < 8) :
    exec (.jmp a) s = .next (s.jump (s.reg ⟨a.toNat, ha⟩)) := by
  show complete _ s (checkReg a >>= _) = _
  rw [checkReg_inside ha]
  rfl

/-- A jump to pc changes nothing (R170). -/
theorem State.jump_pc_eq_self {s : State} {v : Byte} (h : v.toNat = s.pc) : s.jump v = s := by
  simp only [State.jump, h]

/-- A run stays at a state that steps to itself (R89). -/
theorem runFor_of_step_self {s : State} (h : step s = .next s) (n : Nat) : runFor n s = s := by
  induction n with
  | zero => rfl
  | succ n ih => simp only [runFor, h, ih]

/-- Settles O41: the jump to its own address is a step from the state to itself. -/
theorem selfJumpNeverEnds : Obligations.SelfJumpNeverEnds := by
  intro s a ha hr hpc hir hop hself
  have hstep : step s = exec (.jmp a) s :=
    step_of_encode (past := [s.mem.read (s.pc + 2)]) hr hpc (Bool.or_true _) (by rw [hir, hop]; rfl)
  refine runFor_of_step_self ?_
  rw [hstep, exec_jmp_inside s ha, State.jump_pc_eq_self (v := s.reg ⟨a.toNat, ha⟩) hself]

end Sys2Proof.Machine

namespace Sys2Proof.Machine

/-! ## Frames of the instructions that neither store nor move SP -/

/-- The register writers put one byte into register a and move pc past their three bytes (R100, R121). -/
theorem Completes.eq_setReg {i : Instr} {a b : Byte} {s t : State} (h : Completes s i t)
    (hi : i = .ldi a b ∨ i = .add a b ∨ i = .sub a b ∨ i = .mul a b ∨ i = .div a b) :
    ∃ (ha : a.toNat < 8) (v : Byte), t = (s.setReg ⟨a.toNat, ha⟩ v).advance 3 := by
  rcases hi with rfl | rfl | rfl | rfl | rfl <;> cases h <;> exact ⟨‹a.toNat < 8›, _, rfl⟩

/-- Settles O16: the one register written is a, and a fault changes `run` alone. -/
theorem registerWritersFrame : Obligations.RegisterWritersFrame := by
  intro i a b s t hi h
  obtain hc | ⟨c, rfl⟩ := exec_cases h
  · obtain ⟨ha, v, rfl⟩ := hc.eq_setReg hi
    exact ⟨fun k hk hne => Vector.getElem_set_ne ha hk hne.symm, rfl, rfl, rfl, .inl rfl, fun _ => rfl⟩
  · exact ⟨fun _ _ _ => rfl, rfl, rfl, rfl, .inr ⟨_, rfl⟩, fun _ => rfl⟩

/-- JMP, JEQ and JNE write pc alone, taken or not (R173 to R175). -/
theorem Completes.eq_withPc {i : Instr} {a : Byte} {s t : State} (h : Completes s i t)
    (hi : i = .jmp a ∨ i = .jeq a ∨ i = .jne a) : ∃ n, t = { s with pc := n } := by
  rcases hi with rfl | rfl | rfl <;> cases h <;> exact ⟨_, rfl⟩

/-- Settles O17: besides pc, PRN writes the output, HLT the run state, CMP the flags, and a jump nothing. -/
theorem nonWritersFrame : Obligations.NonWritersFrame := by
  intro i a b s t hi h
  obtain hc | ⟨c, rfl⟩ := exec_cases h
  · rcases hi with rfl | rfl | rfl | hj
    · cases hc
      exact ⟨fun _ _ => rfl, fun _ => rfl, fun hne => absurd rfl hne, rfl, .inl rfl, fun _ => rfl⟩
    · cases hc
      exact ⟨fun _ _ => rfl, fun _ => rfl, fun _ => rfl, rfl, .inr (.inl ⟨rfl, rfl⟩), fun _ => rfl⟩
    · cases hc
      exact ⟨fun _ _ => rfl, fun hne => absurd rfl hne, fun _ => rfl, rfl, .inl rfl, fun _ => rfl⟩
    · obtain ⟨n, rfl⟩ := hc.eq_withPc hj
      exact ⟨fun _ _ => rfl, fun _ => rfl, fun _ => rfl, rfl, .inl rfl, fun _ => rfl⟩
  · exact ⟨fun _ _ => rfl, fun _ => rfl, fun _ => rfl, rfl, .inr (.inr ⟨_, rfl⟩), fun _ => rfl⟩

/-! ## LDI, PRN and HLT -/

/-- An instruction that first checks an index of 8 or more takes that fault, whatever it would do next (R12, R86). -/
theorem complete_checkReg_outside {ir idx : Byte} (h : 8 ≤ idx.toNat) (f : Fin 8 → Except Cause State) (s : State) :
    complete ir s (checkReg idx >>= f) = .next (takeFault (.outOfRange (.register idx)) (some ir) s) := by
  rw [checkReg_outside (Nat.not_lt.mpr h)]
  rfl

/-- LDI into a register completes (R100). -/
theorem exec_ldi_inside (s : State) {a : Byte} (ha : a.toNat < 8) (b : Byte) :
    exec (.ldi a b) s = .next ((s.setReg ⟨a.toNat, ha⟩ b).advance 3) := by
  show complete _ s (checkReg a >>= _) = _
  rw [checkReg_inside ha]
  rfl

/-- Settles O1: the index check decides between the write and the fault; the bytes decode as LDI's encoding. -/
theorem ldiLoadsImmediate : Obligations.LdiLoadsImmediate := fun s a b =>
  ⟨fun ha => exec_ldi_inside s ha b, fun ha => complete_checkReg_outside ha _ s, rfl,
    fun e => decodeOfEncode e (.ldi a b) _ a b [] (Bool.or_true e) rfl⟩

/-- Settles O2: the index check decides between the emission and the fault; the bytes decode as PRN's encoding. -/
theorem prnEmitsRegister : Obligations.PrnEmitsRegister := fun s a =>
  ⟨exec_prn_inside s, fun ha => complete_checkReg_outside ha _ s, rfl,
    fun e b => decodeOfEncode e (.prn a) _ a b [b] (Bool.or_true e) rfl⟩

/-- Settles O3: HLT checks nothing and its state is terminal; at 254 and 255 it is the fetch that faults (R82). -/
theorem hltHaltsAfterIncrement : Obligations.HltHaltsAfterIncrement := by
  refine ⟨fun _ => rfl, rfl, fun e a b => decodeOfEncode e .hlt _ a b [a, b] (Bool.or_true e) rfl,
    fun s hr hpc hir => ?_, fun s t h => ?_⟩
  · obtain ⟨at254, at255, -⟩ := (fetchReadsThreeBytes s).2 hr
    rw [← hir]
    exact hpc.elim (fun hp => hp ▸ at254 hp) (fun hp => hp ▸ at255 hp)
  · cases h
    exact ⟨rfl, step_of_terminal rfl⟩

/-- Settles O21: each word's first byte is looked up in the table with `ALU_EXT` true. -/
theorem sampleWordsDecode : Obligations.SampleWordsDecode :=
  ⟨rfl, rfl, rfl, rfl, rfl, rfl, rfl⟩

end Sys2Proof.Machine

namespace Sys2Proof.Machine

/-! ## The arithmetic of the ALU -/

/-- Reduction modulo 256, as a natural (R12). -/
@[simp] theorem wrap_toNat (n : Nat) : (wrap n).toNat = n % 256 := BitVec.toNat_ofNat n 8

/-- A value that fits a byte is not reduced (R12). -/
theorem wrap_toNat_of_lt {n : Nat} (h : n < 256) : (wrap n).toNat = n := by
  rw [wrap_toNat, Nat.mod_eq_of_lt h]

/-- A byte is its own reduction (R11, R12). -/
@[simp] theorem wrap_byte (u : Byte) : wrap u.toNat = u := BitVec.eq_of_toNat_eq (wrap_toNat_of_lt u.isLt)

/-- Reducing before the narrowing to a byte changes nothing (R12). -/
theorem wrap_eq_ofNat_mod (n : Nat) : wrap n = BitVec.ofNat 8 (n % 256) := by
  apply BitVec.eq_of_toNat_eq
  rw [wrap_toNat, BitVec.toNat_ofNat, Nat.mod_mod]

/-- The sum with 0 (R127). -/
theorem aluAdd_zero (u : Byte) : aluAdd u 0#8 = u := wrap_byte u

/-- The difference with 0: the 256 added is reduced away (R127). -/
theorem aluSub_zero (u : Byte) : aluSub u 0#8 = u := by
  apply BitVec.eq_of_toNat_eq
  calc (aluSub u 0#8).toNat = (u.toNat + 256) % 256 := wrap_toNat _
    _ = u.toNat := by rw [Nat.add_mod_right, Nat.mod_eq_of_lt u.isLt]

/-- The difference of 0 and a nonzero byte borrows (R127). -/
theorem zero_aluSub {v : Byte} (hv : v ≠ 0#8) : (aluSub 0#8 v).toNat = 256 - v.toNat := by
  have hpos : 0 < v.toNat := Nat.pos_of_ne_zero fun h => hv (BitVec.eq_of_toNat_eq h)
  calc (aluSub 0#8 v).toNat = (0 + 256 - v.toNat) % 256 := wrap_toNat _
    _ = 256 - v.toNat := by omega

/-- The quotient by a nonzero divisor (R125, R127). -/
theorem aluDiv_nonzero (u : Byte) {v : Byte} (hv : v ≠ 0#8) : aluDiv u v = .ok (wrap (u.toNat / v.toNat)) := if_neg hv

/-- A zero divisor raises DivisionByZero (R125, D8). -/
theorem aluDiv_zero (u : Byte) : aluDiv u 0#8 = .error (.arithmeticError .divisionByZero) := if_pos rfl

/-- A floor quotient of bytes is a byte, so it is not reduced (R127). -/
theorem wrap_div_toNat (u v : Byte) : (wrap (u.toNat / v.toNat)).toNat = u.toNat / v.toNat :=
  wrap_toNat_of_lt ((Nat.div_le_self _ _).trans_lt u.isLt)

/-- The quotient of 0 (R127). -/
theorem zero_aluDiv {v : Byte} (hv : v ≠ 0#8) : aluDiv 0#8 v = .ok 0#8 := by
  rw [aluDiv_nonzero 0#8 hv, BitVec.toNat_ofNat, Nat.zero_mod, Nat.zero_div]
  rfl

/-- Settles O47: each operation is the exact natural result reduced modulo 256, and a quotient is below 256. -/
theorem aluLaws : Obligations.AluLaws := fun u v =>
  ⟨wrap_toNat _, aluAdd_zero u, wrap_toNat _, aluSub_zero u, zero_aluSub, wrap_toNat _, rfl,
    fun hv => ⟨_, aluDiv_nonzero u hv, wrap_div_toNat u v⟩, aluDiv_zero u, zero_aluDiv, rfl⟩

/-! ## The operand pair of the ALU -/

/-- A pair of registers passes the check (R120). -/
theorem checkPair_inside {a b : Byte} (ha : a.toNat < 8) (hb : b.toNat < 8) :
    checkPair a b = .ok (⟨a.toNat, ha⟩, ⟨b.toNat, hb⟩) := by
  simp only [checkPair, checkReg_inside ha, checkReg_inside hb, bind, Except.bind, pure, Except.pure]

/-- An instruction that first checks a pair takes the fault of an index a of 8 or more, whatever b is (R86, R120). -/
theorem complete_checkPair_outside_fst {a : Byte} (ha : 8 ≤ a.toNat) (ir b : Byte) (s : State)
    (g : Fin 8 × Fin 8 → Except Cause State) :
    complete ir s (checkPair a b >>= g) = .next (takeFault (.outOfRange (.register a)) (some ir) s) := by
  rw [checkPair, checkReg_outside (Nat.not_lt.mpr ha)]
  rfl

/-- An instruction that first checks a pair whose a is a register takes the fault of an index b of 8 or more (R86,
R120). -/
theorem complete_checkPair_outside_snd {a b : Byte} (ha : a.toNat < 8) (hb : 8 ≤ b.toNat) (ir : Byte) (s : State)
    (g : Fin 8 × Fin 8 → Except Cause State) :
    complete ir s (checkPair a b >>= g) = .next (takeFault (.outOfRange (.register b)) (some ir) s) := by
  rw [checkPair, checkReg_inside ha, checkReg_outside (Nat.not_lt.mpr hb)]
  rfl

/-- An operation in place on registers runs the operation, then writes its result (R120, R121). -/
theorem aluInPlace_inside (f : Byte → Byte → Except Cause Byte) (s : State) {a b : Byte} (ha : a.toNat < 8)
    (hb : b.toNat < 8) : aluInPlace f a b s =
      (f (s.reg ⟨a.toNat, ha⟩) (s.reg ⟨b.toNat, hb⟩)).map fun r => (s.setReg ⟨a.toNat, ha⟩ r).advance 3 := by
  obtain ⟨_, _, h⟩ | ⟨h, -⟩ | ⟨-, h, -⟩ := aluInPlace_cases f a b s
  · exact h
  · omega
  · omega

/-- An operation in place that gives a result writes it to register a (R120, R121). -/
theorem complete_aluInPlace_ok {f : Byte → Byte → Except Cause Byte} {s : State} {ir a b r : Byte} (ha : a.toNat < 8)
    (hb : b.toNat < 8) (hr : f (s.reg ⟨a.toNat, ha⟩) (s.reg ⟨b.toNat, hb⟩) = .ok r) :
    complete ir s (aluInPlace f a b s) = .next ((s.setReg ⟨a.toNat, ha⟩ r).advance 3) := by
  rw [aluInPlace_inside f s ha hb, hr]
  rfl

/-- An operation in place that raises a fault writes nothing (R86, R125). -/
theorem complete_aluInPlace_error {f : Byte → Byte → Except Cause Byte} {s : State} {ir a b : Byte} {c : Cause}
    (ha : a.toNat < 8) (hb : b.toNat < 8) (hc : f (s.reg ⟨a.toNat, ha⟩) (s.reg ⟨b.toNat, hb⟩) = .error c) :
    complete ir s (aluInPlace f a b s) = .next (takeFault c (some ir) s) := by
  rw [aluInPlace_inside f s ha hb, hc]
  rfl

/-! ## CMP, MUL, ADD, SUB and DIV -/

/-- Without `ALU_EXT` a byte outside the base table is illegal (R67, D2). -/
theorem decode_false_of_not_mem_baseOpcodes {ir : Byte} (h : ir ∉ baseOpcodes) (a b : Byte) :
    decode false ir a b = .illegalOpcode ir :=
  decode_of_lookupOpcode_none (lookupOpcode_eq_none (e := false) h nofun) a b

/-- CMP of registers writes the flags of their comparison (R126). -/
theorem exec_cmp_inside (s : State) {a b : Byte} (ha : a.toNat < 8) (hb : b.toNat < 8) : exec (.cmp a b) s =
    .next ((s.setFlags (compareFlags (s.reg ⟨a.toNat, ha⟩) (s.reg ⟨b.toNat, hb⟩))).advance 3) := by
  show complete _ s (checkPair a b >>= _) = _
  rw [checkPair_inside ha hb]
  rfl

/-- Settles O10: the pair check decides between the flags of the comparison, one of which is set, and the fault. -/
theorem cmpSetsOneFlag : Obligations.CmpSetsOneFlag := fun s a b =>
  ⟨fun ha hb => ⟨_, exec_cmp_inside s ha hb, decide_eq_true_iff, decide_eq_true_iff, decide_eq_true_iff,
      compareFlags_exactlyOne _ _⟩,
    fun ha => complete_checkPair_outside_fst ha _ b s _, fun ha hb => complete_checkPair_outside_snd ha hb _ s _, rfl,
    fun e => decodeOfEncode e (.cmp a b) _ a b [] (Bool.or_true e) rfl⟩

/-- Settles O4: the pair check decides between the product and the fault. -/
theorem mulWrapsProduct : Obligations.MulWrapsProduct := fun s a b =>
  ⟨fun ha hb => complete_aluInPlace_ok ha hb (congrArg Except.ok (wrap_eq_ofNat_mod _)),
    fun ha => complete_checkPair_outside_fst ha _ b s _, fun ha hb => complete_checkPair_outside_snd ha hb _ s _, rfl,
    fun e => decodeOfEncode e (.mul a b) _ a b [] (Bool.or_true e) rfl⟩

/-- Settles O5: the pair check decides between the sum and the fault. -/
theorem addWrapsSum : Obligations.AddWrapsSum := fun s a b =>
  ⟨fun ha hb => complete_aluInPlace_ok ha hb (congrArg Except.ok (wrap_eq_ofNat_mod _)),
    fun ha => complete_checkPair_outside_fst ha _ b s _, fun ha hb => complete_checkPair_outside_snd ha hb _ s _, rfl,
    fun e => decodeOfEncode e (.add a b) _ a b [] (Bool.or_true e) rfl⟩

/-- Settles O14: the pair check decides between the difference and the fault; without `ALU_EXT` the byte has no row. -/
theorem subWrapsDifference : Obligations.SubWrapsDifference := fun s a b =>
  ⟨fun ha hb => complete_aluInPlace_ok ha hb (congrArg Except.ok (wrap_eq_ofNat_mod _)),
    fun ha => complete_checkPair_outside_fst ha _ b s _, fun ha hb => complete_checkPair_outside_snd ha hb _ s _, rfl,
    decodeOfEncode true (.sub a b) _ a b [] rfl rfl,
    decode_false_of_not_mem_baseOpcodes (by decide) a b⟩

/-- Settles O15: the pair check comes first, then the divisor decides between the quotient and the fault; without
`ALU_EXT` the byte has no row. -/
theorem divFloorsOrFaults : Obligations.DivFloorsOrFaults := fun s a b =>
  ⟨fun ha hb hv => complete_aluInPlace_ok ha hb (aluDiv_nonzero _ hv),
    fun ha hb hv => complete_aluInPlace_error ha hb ((congrArg (aluDiv _) hv).trans (aluDiv_zero _)),
    fun ha => complete_checkPair_outside_fst ha _ b s _, fun ha hb => complete_checkPair_outside_snd ha hb _ s _, rfl,
    decodeOfEncode true (.div a b) _ a b [] rfl rfl,
    decode_false_of_not_mem_baseOpcodes (by decide) a b⟩

end Sys2Proof.Machine

namespace Sys2Proof.Machine

/-! ## PUSH and POP -/

/-- The bound of a push stops it at SP zero (R151). -/
theorem pushSpace_zero {s : State} (hsp : s.sp = 0#8) : pushSpace s = .error (.stackOverflow 0#8) :=
  (if_pos hsp).trans (by rw [hsp])

/-- The bound of a pop lets it through while the stack is not empty (R152). -/
theorem popByte_nonempty {s : State} (hsp : s.sp.toNat < 0xF4) : popByte s = .ok (s.mem.read s.sp.toNat) :=
  (if_neg (Nat.not_le.mpr hsp)).trans (memRead_byte s s.sp)

/-- The bound of a pop stops it at an empty stack and above (R152). -/
theorem popByte_empty {s : State} (hsp : 0xF4 ≤ s.sp.toNat) : popByte s = .error (.stackUnderflow s.sp) :=
  if_pos hsp

/-- A byte on the stack, with the address of its store taken as a natural (R151, R153). -/
theorem State.push_eq {s : State} (hsp : s.sp ≠ 0#8) (v : Byte) :
    s.push v = { s.lowerSp with mem := s.mem.write (s.sp.toNat - 1) v } := by
  rw [State.push, byte_toNat_sub_one hsp]

/-- PUSH of a register with SP zero overflows (R153). -/
theorem exec_push_overflow {s : State} {a : Byte} (ha : a.toNat < 8) (hsp : s.sp = 0#8) :
    exec (.push a) s = .next (takeFault (.stackOverflow 0#8) (some 0x45#8) s) := by
  show complete _ s (checkReg a >>= fun i => pushSpace s >>= _) = _
  rw [checkReg_inside ha, pushSpace_zero hsp]
  rfl

/-- POP into a register from a stack that is not empty completes (R154). -/
theorem exec_pop_inside {s : State} {a : Byte} (ha : a.toNat < 8) (hsp : s.sp.toNat < 0xF4) : exec (.pop a) s =
    .next ((popSpace (s.setReg ⟨a.toNat, ha⟩ (s.mem.read s.sp.toNat))).advance 2) := by
  show complete _ s (checkReg a >>= fun i => popByte s >>= _) = _
  rw [checkReg_inside ha, popByte_nonempty hsp]
  rfl

/-- POP into a register with SP at the empty stack or above underflows (R154). -/
theorem exec_pop_underflow {s : State} {a : Byte} (ha : a.toNat < 8) (hsp : 0xF4 ≤ s.sp.toNat) :
    exec (.pop a) s = .next (takeFault (.stackUnderflow s.sp) (some 0x46#8) s) := by
  show complete _ s (checkReg a >>= fun i => popByte s >>= _) = _
  rw [checkReg_inside ha, popByte_empty hsp]
  rfl

/-- A pop into another register than SP moves SP as if nothing had been written (R154). -/
theorem popSpace_setReg_other (s : State) {i : Fin 8} (hi : i ≠ spIndex) (v : Byte) :
    popSpace (s.setReg i v) = (s.setReg i v).setReg spIndex (s.sp + 1#8) := by
  simp [popSpace, State.sp, hi.symm]

/-- A pop into SP increments the byte popped (R154, D16). -/
theorem popSpace_setReg_spIndex (s : State) (v : Byte) :
    popSpace (s.setReg spIndex v) = s.setReg spIndex (v + 1#8) := by
  have hsp : (s.setReg spIndex v).sp = v := by simp [State.sp]
  rw [popSpace, hsp]
  simp [State.setReg]

/-- The increment of a byte is the sum reduced modulo 256 (R12, R154). -/
theorem byte_add_one (v : Byte) : v + 1#8 = BitVec.ofNat 8 ((v.toNat + 1) % 256) :=
  wrap_eq_ofNat_mod (v.toNat + 1)

/-- Settles O6: the index check comes first, then SP decides between the store below it and the overflow. -/
theorem pushStoresBelowSp : Obligations.PushStoresBelowSp := fun s a =>
  ⟨fun ha hsp => (exec_push_inside ha hsp).trans (by rw [State.push_eq hsp]; rfl),
    fun ha => complete_checkReg_outside ha _ s, exec_push_overflow, rfl,
    fun e b => decodeOfEncode e (.push a) _ a b [b] (Bool.or_true e) rfl⟩

/-- Settles O7: the index check comes first, then SP decides between the pop and the underflow; a pop into R7 differs
from the others in what the increment of SP reads. -/
theorem popLoadsFromSp : Obligations.PopLoadsFromSp := by
  intro s a
  refine ⟨fun ha hsp hne => ?_, fun h7 hsp => ?_, fun ha => complete_checkReg_outside ha _ s, exec_pop_underflow, rfl,
    fun e b => decodeOfEncode e (.pop a) _ a b [b] (Bool.or_true e) rfl⟩
  · have hi : (⟨a.toNat, ha⟩ : Fin 8) ≠ spIndex := Fin.ne_of_val_ne hne
    rw [exec_pop_inside ha hsp, popSpace_setReg_other s hi]
    rfl
  · have ha : a.toNat < 8 := by omega
    have hi : (⟨a.toNat, ha⟩ : Fin 8) = spIndex := Fin.ext h7
    rw [exec_pop_inside ha hsp, hi, popSpace_setReg_spIndex, byte_add_one]
    rfl

/-! ## Frames of the instructions that move SP -/

/-- PUSH and CALL put one byte on the stack and write pc (R153, R171). -/
theorem Completes.eq_push {i : Instr} {a : Byte} {s t : State} (h : Completes s i t) (hi : i = .push a ∨ i = .call a) :
    s.sp ≠ 0#8 ∧ ∃ v n, t = { s.push v with pc := n } := by
  rcases hi with rfl | rfl
  · cases h with
    | push ha hsp => exact ⟨hsp, _, _, rfl⟩
  · cases h with
    | call hsp hu =>
      subst hu
      exact ⟨hsp, _, _, rfl⟩

/-- Settles O18: a push writes register 7 and the byte at the SP that `pushSpace` leaves; a fault changes `run` alone. -/
theorem pushersFrame : Obligations.PushersFrame := by
  intro i a s t hi h
  obtain hc | ⟨c, rfl⟩ := exec_cases h
  · obtain ⟨hsp, v, n, rfl⟩ := hc.eq_push hi
    refine ⟨fun k hk hne => Vector.getElem_set_ne (by decide) hk hne.symm, rfl, rfl, rfl, .inl rfl,
      fun s₁ h₁ x hx => ?_, fun c h₁ => ?_⟩
    · exact Memory.read_write_other s.mem v (pushSpace_sp h₁ ▸ hx)
    · cases (pushSpace_nonzero hsp).symm.trans h₁
  · exact ⟨fun _ _ _ => rfl, rfl, rfl, rfl, .inr ⟨_, rfl⟩, fun _ _ _ _ => rfl, fun _ _ _ => rfl⟩

/-- A pop's move of SP keeps every register but 7 (R152). -/
theorem popSpace_getElem_ne (s : State) {k : Nat} (hk : k < 8) (hne : k ≠ 7) : (popSpace s).regs[k] = s.regs[k] :=
  Vector.getElem_set_ne (by decide) hk hne.symm

/-- Settles O19: POP writes registers a and 7, RET register 7 and pc, and a fault changes `run` alone. -/
theorem poppersFrame : Obligations.PoppersFrame := by
  intro i a s t hi h
  obtain hc | ⟨c, rfl⟩ := exec_cases h
  · rcases hi with rfl | rfl
    · cases hc with
      | pop ha =>
        refine ⟨fun k hk h7 hne => ?_, rfl, rfl, rfl, .inl rfl, fun _ => rfl⟩
        exact (popSpace_getElem_ne _ hk h7).trans (Vector.getElem_set_ne ha hk (hne rfl).symm)
    · cases hc
      exact ⟨fun k hk h7 _ => popSpace_getElem_ne s hk h7, rfl, rfl, rfl, .inl rfl, fun _ => rfl⟩
  · exact ⟨fun _ _ _ _ => rfl, rfl, rfl, rfl, .inr ⟨_, rfl⟩, fun _ => rfl⟩

/-! ## The round trip of PUSH and POP -/

/-- SP after a byte was put on the stack (R151). -/
@[simp] theorem State.push_sp (s : State) (v : Byte) : (s.push v).sp = s.sp - 1#8 := by
  simp [State.sp_eq, spIndex]

/-- SP after a nonzero SP was pushed below, as a natural (R151). -/
theorem State.push_sp_toNat {s : State} (hsp : s.sp ≠ 0#8) (v : Byte) : (s.push v).sp.toNat = s.sp.toNat - 1 := by
  rw [State.push_sp, byte_toNat_sub_one hsp]

/-- Writing to a register what it holds changes nothing (R20). -/
theorem State.setReg_reg_self (s : State) (i : Fin 8) : s.setReg i (s.reg i) = s := by
  simp [State.setReg, State.reg]

/-- Moving SP back up after a push restores the registers (R155). -/
theorem popSpace_push_regs (s : State) (v : Byte) : (popSpace (s.push v)).regs = s.regs := by
  simp [State.sp, State.reg]

/-- POP of the register just pushed moves SP alone: the byte it loads is the one the register still holds, R7 included
(R155). -/
theorem exec_pop_push {s : State} {a : Byte} (ha : a.toNat < 8) (hm : s.mem.wf) (hsp : s.sp ≠ 0#8)
    (hle : s.sp.toNat ≤ 0xF4) :
    exec (.pop a) ((s.push (s.lowerSp.reg ⟨a.toNat, ha⟩)).advance 2) =
      .next ((popSpace ((s.push (s.lowerSp.reg ⟨a.toNat, ha⟩)).advance 2)).advance 2) := by
  set v := s.lowerSp.reg ⟨a.toNat, ha⟩
  have hsp' : ((s.push v).advance 2).sp.toNat = s.sp.toNat - 1 :=
    State.push_sp_toNat hsp v
  have hread : ((s.push v).advance 2).mem.read (s.sp.toNat - 1) = ((s.push v).advance 2).reg ⟨a.toNat, ha⟩ :=
    State.push_read_same hm hsp v
  rw [exec_pop_inside ha (by omega), hsp', hread, State.setReg_reg_self]

/-- POP after a push from an SP above 0xF4 underflows: SP is lower, and still at the empty stack or above (R155). -/
theorem exec_pop_push_underflow {s : State} {a : Byte} (ha : a.toNat < 8) (hsp : s.sp ≠ 0#8) (hlt : 0xF4 < s.sp.toNat)
    (v : Byte) : exec (.pop a) ((s.push v).advance 2) =
      .next (takeFault (.stackUnderflow (s.sp - 1#8)) (some 0x46#8) ((s.push v).advance 2)) := by
  have hsp' : ((s.push v).advance 2).sp.toNat = s.sp.toNat - 1 := State.push_sp_toNat hsp v
  rw [exec_pop_underflow ha (by omega), ← State.push_sp s v]
  rfl

/-- Settles O44: from 1 to 0xF4 the POP finds SP and the byte as the PUSH left them; outside, one of the two faults. -/
theorem pushPopRoundTrip : Obligations.PushPopRoundTrip := by
  intro s a ha hm
  have nonzero : 1 ≤ s.sp.toNat → s.sp ≠ 0#8 := fun hpos h0 => by simp [h0] at hpos
  refine ⟨fun hpos hle => ?_, exec_push_overflow ha, fun hlt => ?_⟩
  · have hsp := nonzero hpos
    exact ⟨_, _, exec_push_inside ha hsp, exec_pop_push ha hm hsp hle, popSpace_push_regs s (s.lowerSp.reg ⟨_, ha⟩), rfl,
      rfl, rfl, rfl, State.push_read_same hm hsp _, fun _ => State.push_read_other hsp _⟩
  · have hsp := nonzero (Nat.one_le_of_lt hlt)
    exact ⟨_, exec_push_inside ha hsp, exec_pop_push_underflow ha hsp hlt _⟩

end Sys2Proof.Machine

namespace Sys2Proof.Machine

/-! ## CALL and RET -/

/-- A jump through a byte that is a register's index completes an instruction (R88, R170). -/
theorem complete_jumpThrough_inside {idx : Byte} (h : idx.toNat < 8) (ir : Byte) (s u : State) :
    complete ir s (jumpThrough idx u) = .next (u.jump (u.reg ⟨idx.toNat, h⟩)) := by
  rw [jumpThrough, checkReg_inside h]
  rfl

@[simp] theorem State.lowerSp_pc (s : State) : s.lowerSp.pc = s.pc := rfl

/-- CALL from SP nonzero, at a pc that a fetch admits, puts the return address on the stack and jumps through the index
it then reads at pc + 1 (R171). -/
theorem exec_call_nonzero {s : State} (hsp : s.sp ≠ 0#8) (hpc : s.pc ≤ 253) (x : Byte) :
    exec (.call x) s = complete 0x50#8 s
      (jumpThrough ((s.push (wrap (s.pc + 2))).mem.read (s.pc + 1)) (s.push (wrap (s.pc + 2)))) := by
  have hread := memRead_inside (s.push (wrap (s.pc + 2))) (a := s.pc + 1) (show s.pc + 1 < 256 by omega)
  simp only [exec, execCall, opcodeOf, pushSpace_nonzero hsp, State.lowerSp_pc, memWrite_lowerSp_eq_ok, State.push_pc,
    hread, bind, Except.bind]

/-- CALL from SP zero overflows (R151, R171). -/
theorem exec_call_overflow {s : State} (hsp : s.sp = 0#8) (x : Byte) :
    exec (.call x) s = .next (takeFault (.stackOverflow 0#8) (some 0x50#8) s) := by
  show complete _ s (pushSpace s >>= _) = _
  rw [pushSpace_zero hsp]
  rfl

/-- The return address of a CALL that a fetch admits is not reduced (R12, R82, R171). -/
theorem returnAddress_toNat {s : State} (hpc : s.pc ≤ 253) : (wrap (s.pc + 2)).toNat = s.pc + 2 :=
  wrap_toNat_of_lt (by omega)

/-- The return address of a CALL that a fetch admits is not 0, so memory in any form reads it back (R49, R171). -/
theorem returnAddress_ne_zero {s : State} (hpc : s.pc ≤ 253) : wrap (s.pc + 2) ≠ 0#8 := by
  intro h
  have hzero := returnAddress_toNat hpc
  simp [h] at hzero

/-- Settles O8: SP decides between the push and the overflow; after the push the index that pc + 1 then holds decides
between the jump and the fault. -/
theorem callPushesAndJumps : Obligations.CallPushesAndJumps := by
  intro s x hpc
  refine ⟨fun m r hsp hm hr => ?_, fun hsp => exec_call_overflow hsp x, rfl,
    fun e b => decodeOfEncode e (.call x) _ x b [b] (Bool.or_true e) rfl⟩
  have hpush : s.push (wrap (s.pc + 2)) = { s with regs := r, mem := m } := by
    rw [State.push_eq hsp, hm, hr]
    rfl
  have hcall := exec_call_nonzero hsp hpc x
  rw [hpush] at hcall
  refine ⟨fun hi => ?_, fun hi => ?_, fun hne => ?_, fun heq => ?_⟩
  · exact hcall.trans (complete_jumpThrough_inside hi _ s _)
  · exact hcall.trans (complete_checkReg_outside hi _ s)
  · rw [hm]
    exact Memory.read_write_other s.mem _ hne.symm
  · rw [hm, heq]
    exact Memory.read_write_nonzero s.mem _ (returnAddress_ne_zero hpc)

/-- RET from a stack that is not empty completes (R172). -/
theorem exec_ret_inside {s : State} (hsp : s.sp.toNat < 0xF4) :
    exec .ret s = .next ((popSpace s).jump (s.mem.read s.sp.toNat)) := by
  show complete _ s (popByte s >>= _) = _
  rw [popByte_nonempty hsp]
  rfl

/-- RET with SP at the empty stack or above underflows (R152, R172). -/
theorem exec_ret_underflow {s : State} (hsp : 0xF4 ≤ s.sp.toNat) :
    exec .ret s = .next (takeFault (.stackUnderflow s.sp) (some 0x11#8) s) := by
  show complete _ s (popByte s >>= _) = _
  rw [popByte_empty hsp]
  rfl

/-- Settles O9: SP decides between the pop and the underflow. -/
theorem retPopsPc : Obligations.RetPopsPc :=
  ⟨fun _ => exec_ret_inside, fun _ => exec_ret_underflow, rfl,
    fun e a b => decodeOfEncode e .ret _ a b [a, b] (Bool.or_true e) rfl⟩

/-- A CALL that completes leaves the stack as its push did; its jump then writes pc alone (R171). -/
theorem Completes.call_pushed {x : Byte} {s t : State} (h : Completes s (.call x) t) :
    s.sp ≠ 0#8 ∧ t.regs = (s.push (wrap (s.pc + 2))).regs ∧ t.mem = (s.push (wrap (s.pc + 2))).mem := by
  cases h with
  | call hsp hu =>
    subst hu
    exact ⟨hsp, rfl, rfl⟩

/-- Settles O45: the CALL did not fault, so it pushed the return address; the RET's pop undoes the move of SP. -/
theorem callThenRetReturns : Obligations.CallThenRetReturns := by
  intro s t x hpc hle h hf
  obtain hc | ⟨c, rfl⟩ := exec_cases h
  case inr => exact absurd (takeFault_run s c _) (hf _)
  obtain ⟨hsp, hregs, hmem⟩ := hc.call_pushed
  have htop : t.regs[7] = s.regs[7] - 1#8 := by
    rw [hregs]
    exact State.push_sp s _
  have haddr : (s.regs[7] - 1#8).toNat = s.regs[7].toNat - 1 := byte_toNat_sub_one hsp
  have hpos : s.regs[7].toNat ≠ 0 := fun h0 => hsp (BitVec.eq_of_toNat_eq h0)
  refine ⟨htop, ?_, fun u hu hread => ?_⟩
  · rw [hmem, State.push_mem, State.sp_eq, haddr]
    exact Memory.read_write_nonzero s.mem _ (returnAddress_ne_zero hpc)
  · rw [htop] at hu
    have hret := retPopsPc.1 u (by rw [hu, haddr]; omega)
    have hback : (BitVec.ofNat 8 (s.pc + 2)).toNat = s.pc + 2 := returnAddress_toNat hpc
    rwa [hu, haddr, hread, hback, BitVec.sub_add_cancel] at hret

/-! ## JMP, JEQ and JNE -/

/-- Settles O13: the index check decides between the jump and the fault. -/
theorem jmpJumpsThroughRegister : Obligations.JmpJumpsThroughRegister := fun s a =>
  ⟨exec_jmp_inside s, fun ha => complete_checkReg_outside ha _ s, rfl,
    fun e b => decodeOfEncode e (.jmp a) _ a b [b] (Bool.or_true e) rfl⟩

/-- JEQ with E set is a jump through its register (R174). -/
theorem exec_jeq_taken {s : State} (he : s.fl.e = true) (a : Byte) :
    exec (.jeq a) s = complete 0x55#8 s (jumpThrough a s) :=
  congrArg (complete _ s) (if_pos he)

/-- JEQ with E clear falls through and checks no index (R174, D4). -/
theorem exec_jeq_passed {s : State} (he : s.fl.e = false) (a : Byte) : exec (.jeq a) s = .next (s.advance 2) :=
  congrArg (complete _ s) (if_neg (Bool.eq_false_iff.mp he))

/-- JNE with E clear is a jump through its register (R175). -/
theorem exec_jne_taken {s : State} (he : s.fl.e = false) (a : Byte) :
    exec (.jne a) s = complete 0x56#8 s (jumpThrough a s) :=
  congrArg (complete _ s) (if_pos he)

/-- JNE with E set falls through and checks no index (R175, D4). -/
theorem exec_jne_passed {s : State} (he : s.fl.e = true) (a : Byte) : exec (.jne a) s = .next (s.advance 2) :=
  congrArg (complete _ s) (if_neg (ne_false_of_eq_true he))

/-- Settles O11: E decides between the jump, which checks its index, and the fall through, which does not. -/
theorem jeqBranchesOnEqual : Obligations.JeqBranchesOnEqual := fun s a =>
  ⟨fun ha he => (exec_jeq_taken he a).trans (complete_jumpThrough_inside ha _ s s), fun he => exec_jeq_passed he a,
    fun ha he => (exec_jeq_taken he a).trans (complete_checkReg_outside ha _ s), rfl,
    fun e b => decodeOfEncode e (.jeq a) _ a b [b] (Bool.or_true e) rfl⟩

/-- Settles O12: E decides between the fall through, which checks no index, and the jump, which does. -/
theorem jneBranchesOnNotEqual : Obligations.JneBranchesOnNotEqual := fun s a =>
  ⟨fun ha he => (exec_jne_taken he a).trans (complete_jumpThrough_inside ha _ s s), fun he => exec_jne_passed he a,
    fun ha he => (exec_jne_taken he a).trans (complete_checkReg_outside ha _ s), rfl,
    fun e b => decodeOfEncode e (.jne a) _ a b [b] (Bool.or_true e) rfl⟩

/-- Settles O46: JEQ and JNE branch on the two values of the one flag E. -/
theorem exactlyOneOfJeqJneIsTaken : Obligations.ExactlyOneOfJeqJneIsTaken := by
  intro s a ha
  obtain ⟨jeqTaken, jeqPassed, -⟩ := jeqBranchesOnEqual s a
  obtain ⟨jneTaken, jnePassed, -⟩ := jneBranchesOnNotEqual s a
  cases he : s.fl.e with
  | true => exact .inl ⟨jeqTaken ha he, jnePassed he, rfl⟩
  | false => exact .inr ⟨jneTaken ha he, jeqPassed he, rfl⟩

end Sys2Proof.Machine

namespace Sys2Proof.Machine

/-! ## Exit statuses -/

/-- A faulted core exits with the code of its cause, whatever pc and opcode byte the record holds (R201, R213). -/
@[simp] theorem exitStatus_faulted (c : Cause) (pc : Nat) (o : Option Byte) :
    exitStatus (.faulted ⟨c, pc, o⟩) = some c.code := rfl

/-- No load error is told apart by its status (R202, D11). -/
theorem loadErrorStatus_eq_two (e : LoadError) : loadErrorStatus e = 2 := by
  cases e with
  | missingFile => rfl
  | malformedLine => rfl
  | oversized => rfl

/-- Settles O50: a fault's status is its cause's code, and the three load errors share theirs. -/
theorem exitStatuses : Obligations.ExitStatuses := by
  refine ⟨rfl, ?decodeError, loadErrorStatus_eq_two, ?arithmeticError, ?stackOverflow, ?stackUnderflow, ?outOfRange⟩
  case decodeError => exact fun ir p => exitStatus_faulted (.decodeError ir p)
  case arithmeticError => exact fun k => exitStatus_faulted (.arithmeticError k)
  case stackOverflow => exact fun sp => exitStatus_faulted (.stackOverflow sp)
  case stackUnderflow => exact fun sp => exitStatus_faulted (.stackUnderflow sp)
  case outOfRange => exact fun k => exitStatus_faulted (.outOfRange k)

end Sys2Proof.Machine
